-- ==== Sys2Proof/Word.lean ====
section
/-! DEFINITION. The machine's words (00_scope.md R7, R9): bytes, addresses, and memory as plain data. -/

namespace Sys2Proof

/-- The data width: A, X, Y, SP, P and a memory byte are 8 bits (00_scope.md R7). -/
abbrev Byte := BitVec 8

/-- PC and every address are 16 bits (00_scope.md R7). -/
abbrev Addr := BitVec 16

/-- The byte array `M` (10_state.md R33) as a list of the bytes that are not `0x00`; its canonical form is
`Sys2Proof.Memory.wf` of Machine/Ops.lean, and an address that is not listed reads `0x00` (R34). -/
abbrev Memory := List Host.Cell

end Sys2Proof
end

