-- ==== Sys2Proof/Syntax.lean ====
section
/-! DEFINITION. The instructions (00_scope.md R3), their operand forms, and the two halves of a dispatch entry:
the thirteen addressing modes (30_encoding.md R82) and the operations (R96).

The 256 rows of spec/opcode_table.json are the entries (mode, operation) of the dispatch table. An instruction has
one constructor per instruction rule of files 42 to 46, and its operand form says which of its rows it is; the
152 unpopulated rows are the one constructor `unknown`, which carries the opcode byte. -/

namespace Sys2Proof

/-- The addressing modes, under the codes of 30_encoding.md R82. -/
inductive Mode where
  | imp | acc | imm | zp | zpx | zpy | rel | abs | absx | absy | ind | indx | indy
  deriving DecidableEq, Repr

/-- The operations of a dispatch entry: the 35 mnemonics of 00_scope.md R3, and `UNKNOWN` (30_encoding.md R96). -/
inductive Op where
  | lda | ldx | ldy | sta | stx | sty | tax | txa | inx | iny | dex | dec | inc | and | bit | lsr | adc | sbc
  | cmp | cpx | cpy | bcc | bcs | beq | bne | bpl | jmp | jsr | rts | pha | pla | sec | clc | brk | nop | unknown
  deriving DecidableEq, Repr

/-- The operand forms that name a byte of memory, each with its operand byte or word (30_encoding.md R85 to R92). -/
inductive MemOperand where
  | zp (b : Byte)
  | zpx (b : Byte)
  | zpy (b : Byte)
  | abs (w : Addr)
  | absx (w : Addr)
  | absy (w : Addr)
  | indx (b : Byte)
  | indy (b : Byte)
  deriving DecidableEq, Repr

/-- The operand forms an instruction may read a value from: the operand byte itself (R84), or a byte of memory. -/
inductive Src where
  | imm (v : Byte)
  | mem (m : MemOperand)
  deriving DecidableEq, Repr

/-- The instructions. A branch carries its displacement byte, a jump its operand word, `unknown` its opcode byte. -/
inductive Instr where
  | lda (src : Src)
  | ldx (src : Src)
  | ldy (src : Src)
  | sta (dst : MemOperand)
  | stx (dst : MemOperand)
  | sty (dst : MemOperand)
  | tax
  | txa
  | inx
  | iny
  | dex
  | inc (m : MemOperand)
  | dec (m : MemOperand)
  | and (src : Src)
  | bit (m : MemOperand)
  | lsrA
  | lsr (m : MemOperand)
  | adc (src : Src)
  | sbc (src : Src)
  | cmp (src : Src)
  | cpx (src : Src)
  | cpy (src : Src)
  | bcc (d : Byte)
  | bcs (d : Byte)
  | beq (d : Byte)
  | bne (d : Byte)
  | bpl (d : Byte)
  | jmp (t : Addr)
  | jmpInd (ptr : Addr)
  | jsr (t : Addr)
  | rts
  | pha
  | pla
  | sec
  | clc
  | nop
  | brk
  | unknown (op : Byte)
  deriving DecidableEq, Repr

/-- The addressing mode of a memory operand form. -/
def MemOperand.mode : MemOperand → Mode
  | .zp _ => .zp
  | .zpx _ => .zpx
  | .zpy _ => .zpy
  | .abs _ => .abs
  | .absx _ => .absx
  | .absy _ => .absy
  | .indx _ => .indx
  | .indy _ => .indy

/-- The addressing mode of a source operand form. -/
def Src.mode : Src → Mode
  | .imm _ => .imm
  | .mem m => m.mode

/-- The addressing mode of an instruction: the first half of its dispatch entry. -/
def Instr.mode : Instr → Mode
  | .lda src | .ldx src | .ldy src | .and src | .adc src | .sbc src | .cmp src | .cpx src | .cpy src => src.mode
  | .sta m | .stx m | .sty m | .inc m | .dec m | .bit m | .lsr m => m.mode
  | .lsrA => .acc
  | .bcc _ | .bcs _ | .beq _ | .bne _ | .bpl _ => .rel
  | .jmp _ | .jsr _ => .abs
  | .jmpInd _ => .ind
  | .tax | .txa | .inx | .iny | .dex | .rts | .pha | .pla | .sec | .clc | .nop | .brk | .unknown _ => .imp

/-- The operation of an instruction: the second half of its dispatch entry. -/
def Instr.op : Instr → Op
  | .lda _ => .lda
  | .ldx _ => .ldx
  | .ldy _ => .ldy
  | .sta _ => .sta
  | .stx _ => .stx
  | .sty _ => .sty
  | .tax => .tax
  | .txa => .txa
  | .inx => .inx
  | .iny => .iny
  | .dex => .dex
  | .inc _ => .inc
  | .dec _ => .dec
  | .and _ => .and
  | .bit _ => .bit
  | .lsrA => .lsr
  | .lsr _ => .lsr
  | .adc _ => .adc
  | .sbc _ => .sbc
  | .cmp _ => .cmp
  | .cpx _ => .cpx
  | .cpy _ => .cpy
  | .bcc _ => .bcc
  | .bcs _ => .bcs
  | .beq _ => .beq
  | .bne _ => .bne
  | .bpl _ => .bpl
  | .jmp _ => .jmp
  | .jmpInd _ => .jmp
  | .jsr _ => .jsr
  | .rts => .rts
  | .pha => .pha
  | .pla => .pla
  | .sec => .sec
  | .clc => .clc
  | .nop => .nop
  | .brk => .brk
  | .unknown _ => .unknown

end Sys2Proof
end

