-- ==== Sys2Proof/WellFormed.lean ====
section
/-! DEFINITION. Which instructions the block has: the modes the "Operands" line of each instruction rule admits
(files 42 to 46), and for `unknown` the opcode bytes the matrix of 30_encoding.md R101 leaves empty. Written from
those rules, not from the dispatch table of Decode.lean, so that the two can be held against each other. -/

namespace Sys2Proof

/-- The modes each operation takes, from the "Operands" lines of files 42 to 46. -/
def Op.modes : Op → List Mode
  | .lda | .and | .adc | .sbc | .cmp => [.imm, .zp, .zpx, .abs, .absx, .absy, .indx, .indy]
  | .ldx => [.imm, .zp, .zpy, .abs, .absy]
  | .ldy => [.imm, .zp, .zpx, .abs, .absx]
  | .sta => [.zp, .zpx, .abs, .absx, .absy, .indx, .indy]
  | .stx => [.zp, .zpy, .abs]
  | .sty => [.zp, .zpx, .abs]
  | .inc | .dec => [.zp, .zpx, .abs, .absx]
  | .bit => [.zp, .abs]
  | .lsr => [.acc, .zp, .zpx, .abs, .absx]
  | .cpx | .cpy => [.imm, .zp, .abs]
  | .bcc | .bcs | .beq | .bne | .bpl => [.rel]
  | .jmp => [.abs, .ind]
  | .jsr => [.abs]
  | .tax | .txa | .inx | .iny | .dex | .rts | .pha | .pla | .sec | .clc | .nop | .brk | .unknown => [.imp]

/-- The matrix of 30_encoding.md R101: for each high nibble, the low nibbles that are populated. -/
def populatedColumns : Nat → List Nat
  | 0x0 => [0x0]
  | 0x1 => [0x0, 0x8]
  | 0x2 => [0x0, 0x1, 0x4, 0x5, 0x9, 0xC, 0xD]
  | 0x3 => [0x1, 0x5, 0x8, 0x9, 0xD]
  | 0x4 => [0x6, 0x8, 0xA, 0xC, 0xE]
  | 0x5 => [0x6, 0xE]
  | 0x6 => [0x0, 0x1, 0x5, 0x8, 0x9, 0xC, 0xD]
  | 0x7 => [0x1, 0x5, 0x9, 0xD]
  | 0x8 => [0x1, 0x4, 0x5, 0x6, 0xA, 0xC, 0xD, 0xE]
  | 0x9 => [0x0, 0x1, 0x4, 0x5, 0x6, 0x9, 0xD]
  | 0xA => [0x0, 0x1, 0x2, 0x4, 0x5, 0x6, 0x9, 0xA, 0xC, 0xD, 0xE]
  | 0xB => [0x0, 0x1, 0x4, 0x5, 0x6, 0x9, 0xC, 0xD, 0xE]
  | 0xC => [0x0, 0x1, 0x4, 0x5, 0x6, 0x8, 0x9, 0xA, 0xC, 0xD, 0xE]
  | 0xD => [0x0, 0x1, 0x5, 0x6, 0x9, 0xD, 0xE]
  | 0xE => [0x0, 0x1, 0x4, 0x5, 0x6, 0x8, 0x9, 0xA, 0xC, 0xD, 0xE]
  | 0xF => [0x0, 0x1, 0x5, 0x6, 0x9, 0xD, 0xE]
  | _ => []

/-- Whether the matrix of 30_encoding.md R101 populates an opcode byte. -/
def populated (op : Byte) : Bool :=
  (populatedColumns (op.toNat / 16)).contains (op.toNat % 16)

/-- An instruction of the block: its mode is one its rule admits, and an `unknown` carries an unpopulated byte. -/
def WellFormed (i : Instr) : Bool :=
  i.op.modes.contains i.mode &&
    match i with
    | .unknown op => !populated op
    | _ => true

end Sys2Proof
end

