-- ==== Sys2Proof/Decode.lean ====
section
/-! DEFINITION. The instruction_dispatch block and the encoding (30_encoding.md): the 256-entry table, the number of
operand bytes each mode consumes, the decoder (total, rejecting by name) and, after it, the encoder. -/

namespace Sys2Proof

/-- A 16-bit word from its two bytes in memory order, low byte first (20_memory.md R52). -/
def leWord (lo hi : Byte) : Addr := hi ++ lo

/-- The low byte of a word, the first in memory. -/
def loByte (w : Addr) : Byte := w.extractLsb' 0 8

/-- The high byte of a word, the second in memory. -/
def hiByte (w : Addr) : Byte := w.extractLsb' 8 8

/-- `n`: how many operand bytes a mode consumes (30_encoding.md R82, R95). -/
def Mode.count : Mode → Nat
  | .imp | .acc => 0
  | .imm | .zp | .zpx | .zpy | .rel | .indx | .indy => 1
  | .abs | .absx | .absy | .ind => 2

/-- `n` of an instruction's mode. -/
def Instr.count (i : Instr) : Nat := i.mode.count

/-- One populated entry of the dispatch table: its index and the pair (mode, op) (30_encoding.md R96). -/
structure Row where
  opcode : Byte
  mode : Mode
  op : Op
  deriving DecidableEq, Repr

/-- Rows of 30_encoding.md R99 for 42_loads_stores_transfers.md R171 to R173. -/
def loadRows : List Row :=
  [
    ⟨0xA9, .imm, .lda⟩, ⟨0xA5, .zp, .lda⟩, ⟨0xB5, .zpx, .lda⟩, ⟨0xAD, .abs, .lda⟩, ⟨0xBD, .absx, .lda⟩,
    ⟨0xB9, .absy, .lda⟩, ⟨0xA1, .indx, .lda⟩, ⟨0xB1, .indy, .lda⟩, ⟨0xA2, .imm, .ldx⟩, ⟨0xA6, .zp, .ldx⟩,
    ⟨0xB6, .zpy, .ldx⟩, ⟨0xAE, .abs, .ldx⟩, ⟨0xBE, .absy, .ldx⟩, ⟨0xA0, .imm, .ldy⟩, ⟨0xA4, .zp, .ldy⟩,
    ⟨0xB4, .zpx, .ldy⟩, ⟨0xAC, .abs, .ldy⟩, ⟨0xBC, .absx, .ldy⟩ ]

/-- Rows of 30_encoding.md R99 for 42_loads_stores_transfers.md R174 to R176. -/
def storeRows : List Row :=
  [
    ⟨0x85, .zp, .sta⟩, ⟨0x95, .zpx, .sta⟩, ⟨0x8D, .abs, .sta⟩, ⟨0x9D, .absx, .sta⟩, ⟨0x99, .absy, .sta⟩,
    ⟨0x81, .indx, .sta⟩, ⟨0x91, .indy, .sta⟩, ⟨0x86, .zp, .stx⟩, ⟨0x96, .zpy, .stx⟩, ⟨0x8E, .abs, .stx⟩,
    ⟨0x84, .zp, .sty⟩, ⟨0x94, .zpx, .sty⟩, ⟨0x8C, .abs, .sty⟩ ]

/-- Rows of 30_encoding.md R99 for 43_incdec_logic_shift.md R194 to R199. -/
def incDecLogicRows : List Row :=
  [
    ⟨0xE6, .zp, .inc⟩, ⟨0xF6, .zpx, .inc⟩, ⟨0xEE, .abs, .inc⟩, ⟨0xFE, .absx, .inc⟩, ⟨0xC6, .zp, .dec⟩,
    ⟨0xD6, .zpx, .dec⟩, ⟨0xCE, .abs, .dec⟩, ⟨0xDE, .absx, .dec⟩, ⟨0x29, .imm, .and⟩, ⟨0x25, .zp, .and⟩,
    ⟨0x35, .zpx, .and⟩, ⟨0x2D, .abs, .and⟩, ⟨0x3D, .absx, .and⟩, ⟨0x39, .absy, .and⟩, ⟨0x21, .indx, .and⟩,
    ⟨0x31, .indy, .and⟩, ⟨0x24, .zp, .bit⟩, ⟨0x2C, .abs, .bit⟩, ⟨0x4A, .acc, .lsr⟩, ⟨0x46, .zp, .lsr⟩,
    ⟨0x56, .zpx, .lsr⟩, ⟨0x4E, .abs, .lsr⟩, ⟨0x5E, .absx, .lsr⟩ ]

/-- Rows of 30_encoding.md R99 for 44_arith_compare.md R211, R212. -/
def arithRows : List Row :=
  [
    ⟨0x69, .imm, .adc⟩, ⟨0x65, .zp, .adc⟩, ⟨0x75, .zpx, .adc⟩, ⟨0x6D, .abs, .adc⟩, ⟨0x7D, .absx, .adc⟩,
    ⟨0x79, .absy, .adc⟩, ⟨0x61, .indx, .adc⟩, ⟨0x71, .indy, .adc⟩, ⟨0xE9, .imm, .sbc⟩, ⟨0xE5, .zp, .sbc⟩,
    ⟨0xF5, .zpx, .sbc⟩, ⟨0xED, .abs, .sbc⟩, ⟨0xFD, .absx, .sbc⟩, ⟨0xF9, .absy, .sbc⟩, ⟨0xE1, .indx, .sbc⟩,
    ⟨0xF1, .indy, .sbc⟩ ]

/-- Rows of 30_encoding.md R99 for 44_arith_compare.md R213 to R215. -/
def compareRows : List Row :=
  [
    ⟨0xC9, .imm, .cmp⟩, ⟨0xC5, .zp, .cmp⟩, ⟨0xD5, .zpx, .cmp⟩, ⟨0xCD, .abs, .cmp⟩, ⟨0xDD, .absx, .cmp⟩,
    ⟨0xD9, .absy, .cmp⟩, ⟨0xC1, .indx, .cmp⟩, ⟨0xD1, .indy, .cmp⟩, ⟨0xE0, .imm, .cpx⟩, ⟨0xE4, .zp, .cpx⟩,
    ⟨0xEC, .abs, .cpx⟩, ⟨0xC0, .imm, .cpy⟩, ⟨0xC4, .zp, .cpy⟩, ⟨0xCC, .abs, .cpy⟩ ]

/-- Rows of 30_encoding.md R99 for 45_control_transfer.md R232 to R240. -/
def controlRows : List Row :=
  [
    ⟨0x90, .rel, .bcc⟩, ⟨0xB0, .rel, .bcs⟩, ⟨0xF0, .rel, .beq⟩, ⟨0xD0, .rel, .bne⟩, ⟨0x10, .rel, .bpl⟩,
    ⟨0x4C, .abs, .jmp⟩, ⟨0x6C, .ind, .jmp⟩, ⟨0x20, .abs, .jsr⟩, ⟨0x60, .imp, .rts⟩ ]

/-- Rows of 30_encoding.md R99 for 42 R177, R178; 43 R191 to R193; 46 R251 to R260. -/
def impliedRows : List Row :=
  [
    ⟨0xAA, .imp, .tax⟩, ⟨0x8A, .imp, .txa⟩, ⟨0xE8, .imp, .inx⟩, ⟨0xC8, .imp, .iny⟩, ⟨0xCA, .imp, .dex⟩,
    ⟨0x48, .imp, .pha⟩, ⟨0x68, .imp, .pla⟩, ⟨0x38, .imp, .sec⟩, ⟨0x18, .imp, .clc⟩, ⟨0x00, .imp, .brk⟩,
    ⟨0xEA, .imp, .nop⟩ ]

/-- The 104 populated entries (30_encoding.md R99). -/
def rows : List Row :=
  loadRows ++ storeRows ++ incDecLogicRows ++ arithRows ++ compareRows ++ controlRows ++ impliedRows

/-- The dispatch table: every byte R99 does not list maps to (IMP, UNKNOWN) (30_encoding.md R96, R97). -/
def dispatch (op : Byte) : Mode × Op :=
  match rows.find? (fun r => r.opcode == op) with
  | some r => (r.mode, r.op)
  | none => (.imp, .unknown)

/-- The number of operand bytes of the instruction an opcode byte begins, from that byte alone
(30_encoding.md R103). -/
def operandCount (op : Byte) : Nat := (dispatch op).1.count

/-- The memory operand form of a mode that returns an address and takes data (30_encoding.md R85 to R92). -/
def memOf (mode : Mode) (b1 b2 : Byte) : Option MemOperand :=
  match mode with
  | .zp => some (.zp b1)
  | .zpx => some (.zpx b1)
  | .zpy => some (.zpy b1)
  | .abs => some (.abs (leWord b1 b2))
  | .absx => some (.absx (leWord b1 b2))
  | .absy => some (.absy (leWord b1 b2))
  | .indx => some (.indx b1)
  | .indy => some (.indy b1)
  | .imp | .acc | .imm | .rel | .ind => none

/-- The source operand form of a mode: the immediate byte or a byte of memory (30_encoding.md R84, R100). -/
def srcOf (mode : Mode) (b1 b2 : Byte) : Option Src :=
  match mode with
  | .imm => some (.imm b1)
  | m => (memOf m b1 b2).map .mem

/-- The instruction of an operation paired with a mode, `none` where the operation gives the mode no meaning
(30_encoding.md R100). -/
def pair (op : Op) (mode : Mode) (b1 b2 : Byte) : Option Instr :=
  match op with
  | .lda => (srcOf mode b1 b2).map .lda
  | .ldx => (srcOf mode b1 b2).map .ldx
  | .ldy => (srcOf mode b1 b2).map .ldy
  | .sta => (memOf mode b1 b2).map .sta
  | .stx => (memOf mode b1 b2).map .stx
  | .sty => (memOf mode b1 b2).map .sty
  | .inc => (memOf mode b1 b2).map .inc
  | .dec => (memOf mode b1 b2).map .dec
  | .and => (srcOf mode b1 b2).map .and
  | .bit => (memOf mode b1 b2).map .bit
  | .lsr => if mode = .acc then some .lsrA else (memOf mode b1 b2).map .lsr
  | .adc => (srcOf mode b1 b2).map .adc
  | .sbc => (srcOf mode b1 b2).map .sbc
  | .cmp => (srcOf mode b1 b2).map .cmp
  | .cpx => (srcOf mode b1 b2).map .cpx
  | .cpy => (srcOf mode b1 b2).map .cpy
  | .bcc => some (.bcc b1)
  | .bcs => some (.bcs b1)
  | .beq => some (.beq b1)
  | .bne => some (.bne b1)
  | .bpl => some (.bpl b1)
  | .jmp => if mode = .ind then some (.jmpInd (leWord b1 b2)) else some (.jmp (leWord b1 b2))
  | .jsr => some (.jsr (leWord b1 b2))
  | .tax => some .tax
  | .txa => some .txa
  | .inx => some .inx
  | .iny => some .iny
  | .dex => some .dex
  | .rts => some .rts
  | .pha => some .pha
  | .pla => some .pla
  | .sec => some .sec
  | .clc => some .clc
  | .nop => some .nop
  | .brk => some .brk
  | .unknown => none

/-- The instruction an opcode byte and the operand bytes after it stand for. A byte whose entry is UNKNOWN is
`unknown` of itself (30_encoding.md R97); every populated entry pairs (R100). -/
def assemble (op b1 b2 : Byte) : Instr :=
  (pair (dispatch op).2 (dispatch op).1 b1 b2).getD (.unknown op)

/-- Why a list of bytes holds no instruction. No byte VALUE is refused (30_encoding.md R98). -/
inductive DecodeError where
  /-- There is no opcode byte: the only way a lookup fails (R98). -/
  | noOpcodeByte
  /-- The mode of this opcode byte consumes more operand bytes than there are. -/
  | missingOperandByte (op : Byte)
  deriving DecidableEq, Repr

/-- The decoder: one instruction from the front of a list of bytes, and the bytes after it. Only the bytes the
opcode's mode consumes are taken (30_encoding.md R80). -/
def decode : List Byte → Except DecodeError (Instr × List Byte)
  | [] => .error .noOpcodeByte
  | op :: rest =>
    match operandCount op, rest with
    | 0, rest => .ok (assemble op 0 0, rest)
    | 1, b1 :: rest => .ok (assemble op b1 0, rest)
    | 2, b1 :: b2 :: rest => .ok (assemble op b1 b2, rest)
    | _, _ => .error (.missingOperandByte op)

/-- The bytes of a word of the opcode table: bit 0 is the least significant bit of the first byte, bits at and
above `nbits` are 0, and three bytes (the longest instruction) are given. -/
def tableBytes (nbits w : Nat) : List Byte :=
  let v := w % 2 ^ nbits
  [BitVec.ofNat 8 v, BitVec.ofNat 8 (v / 256), BitVec.ofNat 8 (v / 65536)]

/-- The instruction the decoder reads from a word of spec/opcode_table.json. -/
def decodeTableWord (nbits w : Nat) : Option Instr :=
  match decode (tableBytes nbits w) with
  | .ok (i, _) => some i
  | .error _ => none

/-- The opcode byte R99 gives an operation in a mode. -/
def opcodeOf (op : Op) (mode : Mode) : Option Byte :=
  (rows.find? (fun r => r.op == op && r.mode == mode)).map Row.opcode

/-- The operand bytes of a memory operand form, in memory order (30_encoding.md R80). -/
def MemOperand.bytes : MemOperand → List Byte
  | .zp b | .zpx b | .zpy b | .indx b | .indy b => [b]
  | .abs w | .absx w | .absy w => [loByte w, hiByte w]

/-- The operand bytes of a source operand form. -/
def Src.bytes : Src → List Byte
  | .imm v => [v]
  | .mem m => m.bytes

/-- The operand bytes of an instruction, in memory order (30_encoding.md R80). -/
def Instr.operandBytes : Instr → List Byte
  | .lda src | .ldx src | .ldy src | .and src | .adc src | .sbc src | .cmp src | .cpx src | .cpy src => src.bytes
  | .sta m | .stx m | .sty m | .inc m | .dec m | .bit m | .lsr m => m.bytes
  | .bcc d | .bcs d | .beq d | .bne d | .bpl d => [d]
  | .jmp w | .jmpInd w | .jsr w => [loByte w, hiByte w]
  | .lsrA | .tax | .txa | .inx | .iny | .dex | .rts | .pha | .pla | .sec | .clc | .nop | .brk | .unknown _ => []

/-- The encoder: the bytes of an instruction, `none` where the block has no such instruction. -/
def encode (i : Instr) : Option (List Byte) :=
  match i with
  | .unknown op => if (dispatch op).2 = .unknown then some [op] else none
  | i => (opcodeOf i.op i.mode).map (fun op => op :: i.operandBytes)

end Sys2Proof
end

