-- ==== Sys2Proof/Config.lean ====
section
/-! DEFINITION. The named parameters of a launch (00_scope.md R8). They are arguments of the model, not state
(10_state.md R35); State carries them in its field `cfg`, which no step changes (log 1). -/

namespace Sys2Proof

/-- The parameters of 00_scope.md R8, one field each. -/
structure Config where
  /-- `PROG_BASE`: where the loader puts the image; the reset value of PC. -/
  progBase : Addr
  /-- `IMAGE`: the program image. -/
  image : List Byte
  /-- `PROG_END`: the first address past the loaded program, an integer in `[0, 0x10000]`. -/
  progEnd : Nat
  /-- `INIT_MEM`: the memory at the start. -/
  initMem : Memory
  /-- `CLEAR_ON_POP`: whether pop writes `0x00` to the popped stack byte (20_memory.md R60). -/
  clearOnPop : Bool
  /-- `BRANCH_FWD_BIAS`, 0 or 1: the extra offset of a taken forward branch (45_control_transfer.md R231). -/
  branchFwdBias : Bool
  deriving DecidableEq, Repr

/-- The defaults of 00_scope.md R8 with no image: `PROG_BASE = 0x0600`, `PROG_END = PROG_BASE + 0`, memory all
zero, no clearing on pop, no forward bias. -/
def Config.default : Config :=
  { progBase := 0x0600, image := [], progEnd := 0x0600, initMem := [], clearOnPop := false,
    branchFwdBias := false }

end Sys2Proof
end

