-- ==== Sys2Proof/Machine/State.lean ====
section
/-! DEFINITION. The machine's state as plain data (10_state.md), why a step can stop, and the state after reset. -/

namespace Sys2Proof.Machine

/-- The 8-bit registers that hold values (10_state.md R20); PC and P have accessors of their own. -/
inductive Reg where
  | a | x | y | sp
  deriving DecidableEq, Repr

/-- The named flag bits of P (10_state.md R27). -/
inductive Flag where
  | c | z | i | d | b | v | n
  deriving DecidableEq, Repr

/-- The core status (10_state.md R31). -/
inductive Status where
  | idle | running | halted | breakpointed
  deriving DecidableEq, Repr

/-- The diagnostic events on the block's output (60_exceptions.md R303, R306). -/
inductive Diag where
  /-- The instruction at `pc` was not run: it is not wholly below `PROG_END`. -/
  | endOfProgram (pc : Addr)
  /-- The unpopulated opcode `op` at `ia` was executed as a no-op. -/
  | unknownOpcode (op : Byte) (ia : Addr)
  deriving DecidableEq, Repr

/-- What the host sends the block (60_exceptions.md R330). -/
inductive HostEvent where
  | reset | load | start | tick | resume | stop
  deriving DecidableEq, Repr

/-- Why a step stops with a fault. -/
inductive Fault where
  /-- `AddressError` (60_exceptions.md R301): the memory port was asked for an address outside `[0, 65535]`. Raised
  by the port for a caller outside the block (the loader, the console), never by an instruction (20_memory.md R50).
  Safe: the spec names this fault. -/
  | addressError (addr : Int)
  deriving DecidableEq, Repr

/-- Why a step is refused. -/
inductive Refusal where
  /-- An instruction with no meaning in the model. Raised by no arm of `exec`: every instruction has its meaning.
  Safe. -/
  | notModelled (mnemonic : String)
  /-- A launch whose image does not fit, or whose `PROG_END` is above `0x10000` (70_reset_and_hazards.md R344: "a
  model refuses it"). Raised by `launch` and by the host's load event, never by an instruction. Safe. -/
  | launchOutOfRange
  deriving DecidableEq, Repr

/-- The state: what 10_state.md gives the machine, the launch parameters (log 1), and the model's own two queues
(logs 2 and 3). -/
structure State where
  /-- A, the Accumulator (R20, R22). -/
  a : Byte
  /-- X, IndexX (R20, R23). -/
  x : Byte
  /-- Y, IndexY (R20, R24). -/
  y : Byte
  /-- SP, the offset into the stack page (R25). -/
  sp : Byte
  /-- PC; during a tick it is `IA`, the address of the opcode byte (R26). -/
  pc : Addr
  /-- P as stored; its bit 5 is hard-wired in `State.readP` and `State.setFlag` (R27, R36). -/
  p : Byte
  /-- The core status (R31). -/
  status : Status
  /-- M (R33). -/
  mem : Memory
  /-- The launch parameters (00_scope.md R8); no step changes them. -/
  cfg : Config
  /-- The host events not yet delivered, oldest first (70_reset_and_hazards.md R361; log 2). -/
  pending : List HostEvent
  /-- The diagnostics emitted so far, oldest first (60_exceptions.md R306; log 3). -/
  diags : List Diag
  deriving DecidableEq, Repr

/-- The state after reset under given launch parameters (10_state.md R34, 70_reset_and_hazards.md R340). -/
def State.ofConfig (c : Config) : State :=
  { a := 0x00, x := 0x00, y := 0x00, sp := 0x00, pc := c.progBase, p := 0x20, status := .idle,
    mem := c.initMem, cfg := c, pending := [], diags := [] }

/-- The machine right after reset, with the default parameters of 00_scope.md R8 and no image. -/
def State.reset : State := State.ofConfig Config.default

end Sys2Proof.Machine
end

