-- ==== Sys2Proof/Machine/Ops.lean ====
section
/-! DEFINITION. The named operations over memory and registers: the byte array and its port (20_memory.md R50), the
register file (10_state.md R36), the stack (R58 to R61), the diagnostic output, the breakpoint entry and the return
from it (60_exceptions.md R305, R309). -/

namespace Sys2Proof

/-! ### The byte array -/

/-- The byte at an address; an unlisted address reads `0x00` (10_state.md R34: memory is zero-initialized). -/
def Memory.get (m : Memory) (a : Nat) : Byte :=
  match m with
  | [] => 0x00
  | (k, v) :: rest => if a = k then v else Memory.get rest a

/-- The list without any entry for an address. -/
def Memory.erase (m : Memory) (a : Nat) : Memory := m.filter (fun c => c.1 != a)

/-- The list with an entry put at its place by address. -/
def Memory.insert (m : Memory) (a : Nat) (v : Byte) : Memory :=
  match m with
  | [] => [(a, v)]
  | (k, w) :: rest => if a < k then (a, v) :: (k, w) :: rest else (k, w) :: Memory.insert rest a v

/-- Set the byte at an address. Writing `0x00` removes the entry, so that the form stays canonical. -/
def Memory.set (m : Memory) (a : Nat) (v : Byte) : Memory :=
  if v = 0x00 then m.erase a else (m.erase a).insert a v

/-- The canonical form: addresses strictly rising and below 65,536, and no entry equal to what an unlisted address
reads as. -/
abbrev Memory.wf (m : Memory) : Prop :=
  m.Pairwise (fun c d => c.1 < d.1) ∧ ∀ c ∈ m, c.1 < 65536 ∧ c.2 ≠ 0x00

/-- Write bytes at rising addresses, wrapping at the top of the address space. -/
def Memory.place (m : Memory) (a : Addr) (bytes : List Byte) : Memory :=
  match bytes with
  | [] => m
  | b :: bs => Memory.place (m.set a.toNat b) (a + 1) bs

namespace Machine

/-! ### The memory port for callers outside the block (20_memory.md R50, 60_exceptions.md R301) -/

/-- `read(addr)` of the port's contract: AddressError outside `[0, 65535]`, otherwise the byte. -/
def portRead (m : Memory) (addr : Int) : Except Fault Byte :=
  if 0 ≤ addr ∧ addr ≤ 65535 then .ok (m.get addr.toNat) else .error (.addressError addr)

/-- `write(addr, byte)` of the port's contract. -/
def portWrite (m : Memory) (addr : Int) (v : Byte) : Except Fault Memory :=
  if 0 ≤ addr ∧ addr ≤ 65535 then .ok (m.set addr.toNat v) else .error (.addressError addr)

/-- The loader's sequential writes through the port (60_exceptions.md R330). -/
def portLoad (m : Memory) (addr : Int) (bytes : List Byte) : Except Fault Memory :=
  match bytes with
  | [] => .ok m
  | b :: bs =>
    match portWrite m addr b with
    | .ok m' => portLoad m' (addr + 1) bs
    | .error f => .error f

/-! ### The block's own accesses: an address is 16 bits, so none of them can raise AddressError (00_scope.md R11) -/

/-- `MemRead(addr, 1)` (00_scope.md R12). -/
def State.read (s : State) (addr : Addr) : Byte := s.mem.get addr.toNat

/-- `MemWrite(addr, 1, v)` (00_scope.md R12). -/
def State.write (s : State) (addr : Addr) (v : Byte) : State := { s with mem := s.mem.set addr.toNat v }

/-! ### The register file -/

/-- The value of an 8-bit register. -/
def State.reg (s : State) (r : Reg) : Byte :=
  match r with
  | .a => s.a
  | .x => s.x
  | .y => s.y
  | .sp => s.sp

/-- Write an 8-bit register. -/
def State.setReg (s : State) (r : Reg) (v : Byte) : State :=
  match r with
  | .a => { s with a := v }
  | .x => { s with x := v }
  | .y => { s with y := v }
  | .sp => { s with sp := v }

/-- Write PC. -/
def State.setPC (s : State) (v : Addr) : State := { s with pc := v }

/-- The position of a flag in P (10_state.md R27). -/
def Flag.bit : Flag → Nat
  | .c => 0
  | .z => 1
  | .i => 2
  | .d => 3
  | .b => 4
  | .v => 6
  | .n => 7

/-- P as it reads: bit 5 is 1 at all times (10_state.md R27). -/
def State.readP (s : State) : Byte := s.p ||| 0x20

/-- One flag bit of P. -/
def State.flag (s : State) (f : Flag) : Bool := s.readP.getLsbD f.bit

/-- A byte with one bit written. -/
def putBit (p : Byte) (k : Nat) (b : Bool) : Byte :=
  if b then p ||| BitVec.twoPow 8 k else p &&& ~~~(BitVec.twoPow 8 k)

/-- The bit-wise write of P: the named flag alone, and bit 5 forced to 1 (10_state.md R36). -/
def State.setFlag (s : State) (f : Flag) (b : Bool) : State := { s with p := putBit s.p f.bit b ||| 0x20 }

/-! ### The stack (20_memory.md R58 to R62) -/

/-- The stack byte SP names: `0x0100 + SP` (10_state.md R25). -/
def stackAddr (sp : Byte) : Addr := 0x0100#16 + sp.setWidth 16

/-- `Push(v)` (R58): write, then decrement mod 256. -/
def State.push (s : State) (v : Byte) : State := (s.write (stackAddr s.sp) v).setReg .sp (s.sp - 1)

/-- The clearing write of the pop policy: `0x00` where `CLEAR_ON_POP` holds, nothing otherwise (R60). -/
def State.clearPopped (s : State) (addr : Addr) : State :=
  if s.cfg.clearOnPop then s.write addr 0x00 else s

/-- The byte `Pop()` returns: the one above SP (R59). -/
def State.popValue (s : State) : Byte := s.read (stackAddr (s.sp + 1))

/-- What `Pop()` leaves (R59): SP incremented mod 256, and the popped byte cleared under `CLEAR_ON_POP`. -/
def State.popState (s : State) : State :=
  (s.setReg .sp (s.sp + 1)).clearPopped (stackAddr (s.sp + 1))

/-- `Push16(w)` (R61): high byte, then low byte. -/
def State.push16 (s : State) (w : Addr) : State := (s.push (hiByte w)).push (loByte w)

/-- The word `Pop16()` returns (R61): low byte, then high byte. -/
def State.pop16Value (s : State) : Addr := leWord s.popValue s.popState.popValue

/-- What `Pop16()` leaves (R61). -/
def State.pop16State (s : State) : State := s.popState.popState

/-! ### Output, and the breakpoint -/

/-- `emit Diag(...)` (00_scope.md R13). -/
def State.emit (s : State) (d : Diag) : State := { s with diags := s.diags ++ [d] }

/-- Write the core status. -/
def State.setStatus (s : State) (st : Status) : State := { s with status := st }

/-- The block's only trap-like entry (60_exceptions.md R309, 46_stack_flags_system.md R260): push PC (which is `IA`)
high byte first, push P as it is before B is set, set B. No vector is read; the status follows at the tick's end
(40_core_tick.md R131). -/
def State.enterBreakpoint (s : State) : State := ((s.push16 s.pc).push s.readP).setFlag .b true

/-- The return from it (60_exceptions.md R305, R311): B cleared, Running again; nothing is popped. -/
def State.leaveBreakpoint (s : State) : State := (s.setFlag .b false).setStatus .running

/-! ### The console's read-only view (10_state.md R36) -/

/-- `(A, X, Y, PC, SP, P)`. -/
structure Snapshot where
  a : Byte
  x : Byte
  y : Byte
  pc : Addr
  sp : Byte
  p : Byte
  deriving DecidableEq, Repr

/-- The snapshot the host reads between ticks. -/
def State.snapshot (s : State) : Snapshot :=
  { a := s.a, x := s.x, y := s.y, pc := s.pc, sp := s.sp, p := s.readP }

end Machine

end Sys2Proof
end

