-- ==== Sys2Proof/Machine/Flags.lean ====
section
/-! DEFINITION. The alu_flags_engine (41_alu_flags.md): pure computations on bytes and bits, computed exactly and then
narrowed, and the writes of the flags a result sets. -/

namespace Sys2Proof.Machine

/-- What an addition or subtraction gives: the byte, the carry and the overflow (R152). -/
structure Sum where
  r : Byte
  c : Bool
  v : Bool
  deriving DecidableEq, Repr

/-- `Add8(a, m, c)` (R152): the exact sum; the carry is the sum above 255, the overflow is a result whose sign differs
from the sign the two operands share. -/
def add8 (a m : Byte) (c : Bool) : Sum :=
  let s := a.toNat + m.toNat + c.toNat
  let r := BitVec.ofNat 8 s
  { r := r, c := decide (255 < s), v := a.msb == m.msb && r.msb != a.msb }

/-- `Sub8(a, m, c)` is `Add8(a, ~m, c)` (R153). -/
def sub8 (a m : Byte) (c : Bool) : Sum := add8 a (~~~m) c

/-- What a comparison gives: no byte, and no overflow (R154). -/
structure Comparison where
  c : Bool
  z : Bool
  n : Bool
  deriving DecidableEq, Repr

/-- `Cmp8(r, m)` (R154). -/
def cmp8 (r m : Byte) : Comparison :=
  { c := decide (m.toNat ≤ r.toNat), z := r == m, n := (r - m).msb }

/-- `And8(a, m)` (R155). -/
def and8 (a m : Byte) : Byte := a &&& m

/-- What BIT gives (R155). -/
structure BitTest where
  z : Bool
  v : Bool
  n : Bool
  deriving DecidableEq, Repr

/-- `Bit8(a, m)` (R155): Z from `a & m`, V and N are bits 6 and 7 of `m`. -/
def bit8 (a m : Byte) : BitTest := { z := a &&& m == 0, v := m.getLsbD 6, n := m.getLsbD 7 }

/-- What a shift gives: the byte and the outgoing bit (R156). -/
structure Shifted where
  r : Byte
  c : Bool
  deriving DecidableEq, Repr

/-- `Lsr8(v)` (R156). -/
def lsr8 (v : Byte) : Shifted := { r := v >>> 1, c := v.getLsbD 0 }

/-- `Inc8(v)` (R157). -/
def inc8 (v : Byte) : Byte := v + 1

/-- `Dec8(v)` (R157). -/
def dec8 (v : Byte) : Byte := v - 1

/-- `SetZN(r)` (R151): Z and N from a byte, and no other bit. -/
def State.setZN (s : State) (r : Byte) : State := (s.setFlag .z (r == 0)).setFlag .n r.msb

/-- Write a register and set Z and N from the value written: the shape of loads, transfers, increments and AND. -/
def State.setRegZN (s : State) (r : Reg) (v : Byte) : State := (s.setReg r v).setZN v

/-- Write A and the flags C, V, Z and N from a sum: the end of ADC and SBC (44_arith_compare.md R211, R212). -/
def State.putSum (s : State) (u : Sum) : State :=
  (((s.setReg .a u.r).setFlag .c u.c).setFlag .v u.v).setZN u.r

/-- Write C, Z and N from a comparison: the end of CMP, CPX and CPY (44_arith_compare.md R213). -/
def State.putComparison (s : State) (k : Comparison) : State :=
  ((s.setFlag .c k.c).setFlag .z k.z).setFlag .n k.n

end Sys2Proof.Machine
end

