-- ==== Sys2Proof/Machine/Operands.lean ====
section
/-! DEFINITION. The addressing_mode_resolver (30_encoding.md R82 to R94): effective addresses and operand values.
It reads memory and the registers X and Y and writes nothing (R93), so each of these is a plain function of the
state before the instruction. -/

namespace Sys2Proof

namespace Machine

/-- `WordZP(p)`: the pointer at a zero-page address, its high byte wrapping within the zero page (R94). -/
def State.wordZP (s : State) (p : Byte) : Addr :=
  leWord (s.read (p.setWidth 16)) (s.read ((p + 1).setWidth 16))

/-- `Word16(p)`: the pointer at an address, its high byte wrapping mod 65536 (R94). -/
def State.word16 (s : State) (p : Addr) : Addr := leWord (s.read p) (s.read (p + 1))

end Machine

open Machine

/-- The effective address of a memory operand form: R85 (ZP), R86 (ZPX, ZPY: the sum wraps in the zero page), R88
(ABS), R89 (ABSX, ABSY: the sum wraps mod 65536), R91 (INDX: indexed, then indirect), R92 (INDY: indirect, then
indexed). -/
def MemOperand.ea (m : MemOperand) (s : State) : Addr :=
  match m with
  | .zp b => b.setWidth 16
  | .zpx b => (b + s.x).setWidth 16
  | .zpy b => (b + s.y).setWidth 16
  | .abs w => w
  | .absx w => w + s.x.setWidth 16
  | .absy w => w + s.y.setWidth 16
  | .indx b => s.wordZP (b + s.x)
  | .indy b => s.wordZP b + s.y.setWidth 16

/-- `Operand(opnd)` (00_scope.md R14): the immediate byte, or the byte at the effective address. -/
def Src.value (src : Src) (s : State) : Byte :=
  match src with
  | .imm v => v
  | .mem m => s.read (m.ea s)

end Sys2Proof
end

