-- ==== Sys2Proof/Machine/Sequencer.lean ====
section
/-! DEFINITION. The pc_sequencer (40_core_tick.md): the next PC, the branch target, the end-of-program check and the
end of a tick. -/

namespace Sys2Proof.Machine

/-- `Seq` (R126): PC becomes `IA + 1 + n`, `n` the operand bytes consumed. -/
def State.seq (s : State) (n : Nat) : State := s.setPC (s.pc + 1 + BitVec.ofNat 16 n)

/-- `Jump(t)` (R127): PC becomes `t`, with no further adjustment. -/
def State.jump (s : State) (t : Addr) : State := s.setPC t

/-- The target of a taken branch (45_control_transfer.md R231): `IA + 2 + sext(d)`, plus the bias parameter for a
displacement whose bit 7 is clear. -/
def branchTarget (bias : Bool) (ia : Addr) (d : Byte) : Addr :=
  ia + 2 + d.signExtend 16 + (if d.msb then 0 else if bias then 1 else 0)

/-- The common branch body (45_control_transfer.md R231). -/
def State.branch (s : State) (cond : Bool) (d : Byte) : State :=
  if cond then s.jump (branchTarget s.cfg.branchFwdBias s.pc d) else s.seq 1

/-- Whether every byte of the instruction at PC lies at an address below `PROG_END` (R130, R132). -/
def State.belowEnd (s : State) : Bool :=
  (List.range (operandCount (s.read s.pc) + 1)).all
    (fun i => decide ((s.pc + BitVec.ofNat 16 i).toNat < s.cfg.progEnd))

/-- `CheckEnd()` (R130): Halted, with the diagnostic, if the next instruction is not wholly below `PROG_END`. -/
def State.checkEnd (s : State) : State :=
  if s.belowEnd then s else (s.setStatus .halted).emit (.endOfProgram s.pc)

/-- The end of a tick, after PC is written (R121, R131): Breakpointed if B is set, the end check otherwise. -/
def State.endTick (s : State) : State :=
  if s.flag .b then s.setStatus .breakpointed else s.checkEnd

/-- The instruction at an address (R122 to R124): the opcode byte there, and of the two bytes after it those its
mode consumes. -/
def State.instrAt (s : State) (ia : Addr) : Instr :=
  assemble (s.read ia) (s.read (ia + 1)) (s.read (ia + 2))

end Sys2Proof.Machine
end

