-- ==== Sys2Proof/Machine/ArithCompare.lean ====
section
/-! DEFINITION. Arithmetic and compare (44_arith_compare.md): binary whatever D holds (R210). -/

namespace Sys2Proof.Machine

/-- A compare: C, Z and N from a register and the operand; no register and no V (R213 to R215). -/
def State.compare (s : State) (r : Reg) (src : Src) : State :=
  (s.putComparison (cmp8 (s.reg r) (src.value s))).seq src.mode.count

/-- ADC (R211). -/
def execAdc (src : Src) (s : State) : Host.Outcome State Fault Refusal :=
  .next ((s.putSum (add8 s.a (src.value s) (s.flag .c))).seq src.mode.count)

/-- SBC (R212). -/
def execSbc (src : Src) (s : State) : Host.Outcome State Fault Refusal :=
  .next ((s.putSum (sub8 s.a (src.value s) (s.flag .c))).seq src.mode.count)

/-- CMP (R213). -/
def execCmp (src : Src) (s : State) : Host.Outcome State Fault Refusal := .next (s.compare .a src)

/-- CPX (R214). -/
def execCpx (src : Src) (s : State) : Host.Outcome State Fault Refusal := .next (s.compare .x src)

/-- CPY (R215). -/
def execCpy (src : Src) (s : State) : Host.Outcome State Fault Refusal := .next (s.compare .y src)

end Sys2Proof.Machine
end

