-- ==== Sys2Proof/Machine/Control.lean ====
section
/-! DEFINITION. Branches, jumps, subroutine call and return (45_control_transfer.md). No flag is written (R230). -/

namespace Sys2Proof.Machine

/-- BCC (R232). -/
def execBcc (d : Byte) (s : State) : Host.Outcome State Fault Refusal := .next (s.branch (!s.flag .c) d)

/-- BCS (R233). -/
def execBcs (d : Byte) (s : State) : Host.Outcome State Fault Refusal := .next (s.branch (s.flag .c) d)

/-- BEQ (R234). -/
def execBeq (d : Byte) (s : State) : Host.Outcome State Fault Refusal := .next (s.branch (s.flag .z) d)

/-- BNE (R235). -/
def execBne (d : Byte) (s : State) : Host.Outcome State Fault Refusal := .next (s.branch (!s.flag .z) d)

/-- BPL (R236). -/
def execBpl (d : Byte) (s : State) : Host.Outcome State Fault Refusal := .next (s.branch (!s.flag .n) d)

/-- JMP absolute (R237). -/
def execJmp (t : Addr) (s : State) : Host.Outcome State Fault Refusal := .next (s.jump t)

/-- JMP indirect (R238): the word at the pointer (30_encoding.md R90, R94). -/
def execJmpInd (ptr : Addr) (s : State) : Host.Outcome State Fault Refusal := .next (s.jump (s.word16 ptr))

/-- JSR (R239): push `IA + 2`, the address of its last byte, and jump. -/
def execJsr (t : Addr) (s : State) : Host.Outcome State Fault Refusal := .next ((s.push16 (s.pc + 2)).jump t)

/-- RTS (R240): pop a word and go to it plus 1. -/
def execRts (s : State) : Host.Outcome State Fault Refusal := .next (s.pop16State.jump (s.pop16Value + 1))

end Sys2Proof.Machine
end

