-- ==== Sys2Proof/Machine/IncLogicShift.lean ====
section
/-! DEFINITION. Increment, decrement, logical and shift (43_incdec_logic_shift.md). -/

namespace Sys2Proof.Machine

/-- A read-modify-write: one read and one write of the byte at the effective address, Z and N from the result
(R194, R195, 20_memory.md R56). -/
def State.modify (s : State) (m : MemOperand) (f : Byte → Byte) : State :=
  let r := f (s.read (m.ea s))
  ((s.write (m.ea s) r).setZN r).seq m.mode.count

/-- INX (R191). -/
def execInx (s : State) : Host.Outcome State Fault Refusal := .next ((s.setRegZN .x (inc8 s.x)).seq 0)

/-- INY (R192). -/
def execIny (s : State) : Host.Outcome State Fault Refusal := .next ((s.setRegZN .y (inc8 s.y)).seq 0)

/-- DEX (R193). -/
def execDex (s : State) : Host.Outcome State Fault Refusal := .next ((s.setRegZN .x (dec8 s.x)).seq 0)

/-- INC (R194). -/
def execInc (m : MemOperand) (s : State) : Host.Outcome State Fault Refusal := .next (s.modify m inc8)

/-- DEC (R195). -/
def execDec (m : MemOperand) (s : State) : Host.Outcome State Fault Refusal := .next (s.modify m dec8)

/-- AND (R196). -/
def execAnd (src : Src) (s : State) : Host.Outcome State Fault Refusal :=
  .next ((s.setRegZN .a (and8 s.a (src.value s))).seq src.mode.count)

/-- BIT (R197): Z, V and N, and no register. -/
def execBit (m : MemOperand) (s : State) : Host.Outcome State Fault Refusal :=
  let k := bit8 s.a (s.read (m.ea s))
  .next ((((s.setFlag .z k.z).setFlag .v k.v).setFlag .n k.n).seq m.mode.count)

/-- LSR A (R198). -/
def execLsrA (s : State) : Host.Outcome State Fault Refusal :=
  let k := lsr8 s.a
  .next ((((s.setReg .a k.r).setFlag .c k.c).setZN k.r).seq 0)

/-- LSR memory (R199). -/
def execLsr (m : MemOperand) (s : State) : Host.Outcome State Fault Refusal :=
  let k := lsr8 (s.read (m.ea s))
  .next ((((s.write (m.ea s) k.r).setFlag .c k.c).setZN k.r).seq m.mode.count)

end Sys2Proof.Machine
end

