-- ==== Sys2Proof/Machine/LoadStore.lean ====
section
/-! DEFINITION. Loads, stores and transfers (42_loads_stores_transfers.md). -/

namespace Sys2Proof.Machine

/-- A load: the operand into a register, Z and N from it (R171 to R173). -/
def State.load (s : State) (r : Reg) (src : Src) : State :=
  (s.setRegZN r (src.value s)).seq src.mode.count

/-- A store: a register into the byte at the effective address, no flag (R174 to R176). -/
def State.store (s : State) (r : Reg) (dst : MemOperand) : State :=
  (s.write (dst.ea s) (s.reg r)).seq dst.mode.count

/-- A transfer: one register into another, Z and N from it (R177, R178). -/
def State.transfer (s : State) (src dst : Reg) : State := (s.setRegZN dst (s.reg src)).seq 0

/-- LDA (R171). -/
def execLda (src : Src) (s : State) : Host.Outcome State Fault Refusal := .next (s.load .a src)

/-- LDX (R172). -/
def execLdx (src : Src) (s : State) : Host.Outcome State Fault Refusal := .next (s.load .x src)

/-- LDY (R173). -/
def execLdy (src : Src) (s : State) : Host.Outcome State Fault Refusal := .next (s.load .y src)

/-- STA (R174). -/
def execSta (dst : MemOperand) (s : State) : Host.Outcome State Fault Refusal := .next (s.store .a dst)

/-- STX (R175). -/
def execStx (dst : MemOperand) (s : State) : Host.Outcome State Fault Refusal := .next (s.store .x dst)

/-- STY (R176). -/
def execSty (dst : MemOperand) (s : State) : Host.Outcome State Fault Refusal := .next (s.store .y dst)

/-- TAX (R177). -/
def execTax (s : State) : Host.Outcome State Fault Refusal := .next (s.transfer .a .x)

/-- TXA (R178). -/
def execTxa (s : State) : Host.Outcome State Fault Refusal := .next (s.transfer .x .a)

end Sys2Proof.Machine
end

