-- ==== Sys2Proof/Machine/System.lean ====
section
/-! DEFINITION. Stack, status-flag, control and no-operation instructions (46_stack_flags_system.md). -/

namespace Sys2Proof.Machine

/-- PHA (R251). -/
def execPha (s : State) : Host.Outcome State Fault Refusal := .next ((s.push s.a).seq 0)

/-- PLA (R252): Z and N from the pulled value. -/
def execPla (s : State) : Host.Outcome State Fault Refusal := .next ((s.popState.setRegZN .a s.popValue).seq 0)

/-- SEC (R253). -/
def execSec (s : State) : Host.Outcome State Fault Refusal := .next ((s.setFlag .c true).seq 0)

/-- CLC (R254). -/
def execClc (s : State) : Host.Outcome State Fault Refusal := .next ((s.setFlag .c false).seq 0)

/-- NOP (R255). -/
def execNop (s : State) : Host.Outcome State Fault Refusal := .next (s.seq 0)

/-- BRK (R260): the breakpoint entry, then the sequential advance; the tick's end makes the status Breakpointed. -/
def execBrk (s : State) : Host.Outcome State Fault Refusal := .next (s.enterBreakpoint.seq 0)

/-- UNKNOWN (R262): a diagnostic and the sequential advance. -/
def execUnknown (op : Byte) (s : State) : Host.Outcome State Fault Refusal :=
  .next ((s.emit (.unknownOpcode op s.pc)).seq 0)

end Sys2Proof.Machine
end

