-- ==== Sys2Proof/Machine/Dispatch.lean ====
section
/-! DEFINITION. One arm per instruction, each a direct call of its meaning. -/

namespace Sys2Proof.Machine

def exec (i : Instr) (s : State) : Host.Outcome State Fault Refusal :=
  match i with
  -- 42_loads_stores_transfers.md
  | .lda src => Sys2Proof.Machine.execLda src s
  | .ldx src => Sys2Proof.Machine.execLdx src s
  | .ldy src => Sys2Proof.Machine.execLdy src s
  | .sta dst => Sys2Proof.Machine.execSta dst s
  | .stx dst => Sys2Proof.Machine.execStx dst s
  | .sty dst => Sys2Proof.Machine.execSty dst s
  | .tax => Sys2Proof.Machine.execTax s
  | .txa => Sys2Proof.Machine.execTxa s
  -- 43_incdec_logic_shift.md
  | .inx => Sys2Proof.Machine.execInx s
  | .iny => Sys2Proof.Machine.execIny s
  | .dex => Sys2Proof.Machine.execDex s
  | .inc m => Sys2Proof.Machine.execInc m s
  | .dec m => Sys2Proof.Machine.execDec m s
  | .and src => Sys2Proof.Machine.execAnd src s
  | .bit m => Sys2Proof.Machine.execBit m s
  | .lsrA => Sys2Proof.Machine.execLsrA s
  | .lsr m => Sys2Proof.Machine.execLsr m s
  -- 44_arith_compare.md
  | .adc src => Sys2Proof.Machine.execAdc src s
  | .sbc src => Sys2Proof.Machine.execSbc src s
  | .cmp src => Sys2Proof.Machine.execCmp src s
  | .cpx src => Sys2Proof.Machine.execCpx src s
  | .cpy src => Sys2Proof.Machine.execCpy src s
  -- 45_control_transfer.md
  | .bcc d => Sys2Proof.Machine.execBcc d s
  | .bcs d => Sys2Proof.Machine.execBcs d s
  | .beq d => Sys2Proof.Machine.execBeq d s
  | .bne d => Sys2Proof.Machine.execBne d s
  | .bpl d => Sys2Proof.Machine.execBpl d s
  | .jmp t => Sys2Proof.Machine.execJmp t s
  | .jmpInd ptr => Sys2Proof.Machine.execJmpInd ptr s
  | .jsr t => Sys2Proof.Machine.execJsr t s
  | .rts => Sys2Proof.Machine.execRts s
  -- 46_stack_flags_system.md
  | .pha => Sys2Proof.Machine.execPha s
  | .pla => Sys2Proof.Machine.execPla s
  | .sec => Sys2Proof.Machine.execSec s
  | .clc => Sys2Proof.Machine.execClc s
  | .nop => Sys2Proof.Machine.execNop s
  | .brk => Sys2Proof.Machine.execBrk s
  | .unknown op => Sys2Proof.Machine.execUnknown op s

end Sys2Proof.Machine
end

