-- ==== Sys2Proof/Machine/Events.lean ====
section
/-! DEFINITION. The tick (40_core_tick.md R121) and the host's other events (60_exceptions.md R302 to R307, R330). -/

namespace Sys2Proof.Machine

/-- Carry a next state through the end of the tick. -/
def endOfTick (o : Host.Outcome State Fault Refusal) : Host.Outcome State Fault Refusal :=
  match o with
  | .next t => .next t.endTick
  | .fault r => .fault r
  | .refused r => .refused r

/-- The tick (40_core_tick.md R121): one instruction if Running, nothing otherwise (R129). -/
def tick (s : State) : Host.Outcome State Fault Refusal :=
  if s.status = .running then endOfTick (exec (s.instrAt s.pc) s) else .next s

/-- Reset, at construction or re-initialization (70_reset_and_hazards.md R340). Host events still queued are the
host's, and stay. -/
def resetSignal (s : State) : State := { State.ofConfig s.cfg with pending := s.pending }

/-- A launch the spec defines (70_reset_and_hazards.md R344; what is refused outside it, log 6). -/
def launchFits (c : Config) : Bool :=
  decide (c.progBase.toNat + c.image.length ≤ 0x10000) && decide (c.progEnd ≤ 0x10000)

/-- Load (60_exceptions.md R330, 70_reset_and_hazards.md R342): the loader writes IMAGE from `PROG_BASE` upward
through the memory port, while Idle; in any other status nothing (R307's last row, log 5). -/
def loadSignal (s : State) : Host.Outcome State Fault Refusal :=
  if s.status = .idle then
    if launchFits s.cfg then
      match portLoad s.mem s.cfg.progBase.toNat s.cfg.image with
      | .ok m => .next { s with mem := m }
      | .error f => .fault f
    else .refused .launchOutOfRange
  else .next s

/-- Start (60_exceptions.md R302). -/
def startSignal (s : State) : State :=
  if s.status = .idle then (s.setStatus .running).checkEnd else s

/-- Resume (60_exceptions.md R305). -/
def resumeSignal (s : State) : State :=
  if s.status = .breakpointed then s.leaveBreakpoint.checkEnd else s

/-- What the block does on each host event; stop is the host ceasing to send events and changes nothing
(60_exceptions.md R331). -/
def hostEvent (e : HostEvent) (s : State) : Host.Outcome State Fault Refusal :=
  match e with
  | .reset => .next (resetSignal s)
  | .load => loadSignal s
  | .start => .next (startSignal s)
  | .tick => tick s
  | .resume => .next (resumeSignal s)
  | .stop => .next s

/-- Deliver the oldest pending host event; with none pending the host is free-running and sends a tick
(70_reset_and_hazards.md R361, log 2). -/
def deliver (s : State) : Host.Outcome State Fault Refusal :=
  match s.pending with
  | [] => tick s
  | e :: es => hostEvent e { s with pending := es }

/-- The default parameters for an image loaded at any `PROG_BASE` (00_scope.md R8): `PROG_END = PROG_BASE + len(IMAGE)`,
`INIT_MEM` zeros and then `IMAGE` at `PROG_BASE`, no clearing on pop, no forward bias. A launch that gives one of these
another value is an update of that field. -/
def defaultsFor (base : Addr) (image : List Byte) : Config :=
  { Config.default with
    progBase := base
    image := image
    progEnd := base.toNat + image.length
    initMem := Memory.place [] base image }

/-- The default parameters for an image, at the default `PROG_BASE = 0x0600` (00_scope.md R8). -/
def imageConfig (image : List Byte) : Config := defaultsFor 0x0600 image

/-- A launch: the state after reset under its parameters, refused where the spec does not define it
(60_exceptions.md R320, 70_reset_and_hazards.md R344). -/
def launch (c : Config) : Host.Outcome State Fault Refusal :=
  if launchFits c then .next (State.ofConfig c) else .refused .launchOutOfRange

/-- Store an instruction's bytes at PC in a machine that runs, with `PROG_END` at the top of memory so that no end
check is in its way (the convention of 95_test_vectors.md section 0), and no host event before the tick. -/
def State.withBytes (s : State) (bytes : List Byte) : State :=
  { s with
    mem := s.mem.place s.pc bytes
    status := .running
    cfg := { s.cfg with progEnd := 0x10000 }
    pending := [] }

end Sys2Proof.Machine
end

