-- ==== Sys2Proof/Machine/Step.lean ====
section
/-! DEFINITION. One step, and the placing of one instruction where it is fetched next. -/

namespace Sys2Proof.Machine

/-- One step: the oldest pending host event, or a tick where none is pending. -/
def step (s : State) : Host.Outcome State Fault Refusal := deliver s

/-- The state with the instruction of an opcode-table word stored where the next step fetches it (log 4). -/
def State.withFetchWord (s : State) (nbits w : Nat) : State := s.withBytes (Sys2Proof.tableBytes nbits w)

end Sys2Proof.Machine
end

