-- ==== Sys2Proof/Safety.lean ====
section
/-! DEFINITION. The terms claims are stated in: what a step may change (the frame), the machine's invariant, the four
conditions and what counts as the end of a run, and the resolver and the writers of each register as the spec's
tables give them, written from the spec's text and not from the machine. -/

namespace Sys2Proof.Machine

/-! ### Frames -/

/-- `t` differs from `s` at most in the named registers and flags, the stored bytes, PC, and the diagnostics `out`
emitted in between. -/
structure Frame (regs : List Reg) (flags : List Flag) (stored : List Addr) (out : List Diag) (s t : State) :
    Prop where
  /-- Every register but the named ones is unchanged. -/
  regs : ∀ r, r ∉ regs → t.reg r = s.reg r
  /-- Every flag but the named ones is unchanged. -/
  flags : ∀ f, f ∉ flags → t.flag f = s.flag f
  /-- Bit 5 of P reads 1. -/
  bit5 : t.readP.getLsbD 5 = true
  /-- Every byte of memory but the stored ones reads as before. -/
  memory : ∀ e, e ∉ stored → t.read e = s.read e
  status : t.status = s.status
  cfg : t.cfg = s.cfg
  pending : t.pending = s.pending
  diags : t.diags = s.diags ++ out

/-- Z and N report a byte (41_alu_flags.md R151: "`Negative(a)` holds iff `a >= 128`; `Zero(a)` holds iff
`a == 0`"). -/
def ReportsZN (r : Byte) (t : State) : Prop :=
  (t.flag .z = true ↔ r.toNat = 0) ∧ (t.flag .n = true ↔ 128 ≤ r.toNat)

/-- C, Z and N report a comparison of a register value with an operand: C is "register at least operand" (unsigned), Z
is equality, N is bit 7 of the difference mod 256 (41_alu_flags.md R154). -/
def ReportsCompare (r m : Byte) (t : State) : Prop :=
  (t.flag .c = true ↔ m.toNat ≤ r.toNat) ∧ (t.flag .z = true ↔ r = m) ∧
    (t.flag .n = true ↔ 128 ≤ (r.toNat + 256 - m.toNat) % 256)

/-- PC after a branch with a condition and a displacement: `IA + 2 + sext(d)`, plus 1 under `BRANCH_FWD_BIAS` where
`d[7] = 0`, if the condition holds, and `IA + 2` if not (45_control_transfer.md R231). -/
def GoesTo (cond : Bool) (d : Byte) (s t : State) : Prop :=
  (t.pc.toNat : Int) =
    if cond then
      (s.pc.toNat + 2 + d.toInt + (if 0 ≤ d.toInt ∧ s.cfg.branchFwdBias = true then 1 else 0)) % 65536
    else (s.pc.toNat + 2) % 65536

/-- PC is just past the instruction: `(IA + 1 + n) mod 65536` (40_core_tick.md R126). -/
def AdvancesBy (n : Nat) (s t : State) : Prop := t.pc.toNat = (s.pc.toNat + 1 + n) % 65536

/-- The dispatch entries of an operation are exactly these (mode, opcode byte) pairs. -/
def HasEncodings (op : Op) (l : List (Mode × Byte)) : Prop := ∀ mode b, dispatch b = (mode, op) ↔ (mode, b) ∈ l

/-! ### The invariant -/

/-- What holds of the machine at reset and after every event, whatever the host sends. -/
structure State.Inv (s : State) : Prop where
  /-- Memory is in canonical form, so that equal memories are equal data. -/
  memory : s.mem.wf
  /-- So is the memory a reset restores. -/
  initMem : s.cfg.initMem.wf
  /-- Bit 5 of the stored P is 1 (10_state.md R27). -/
  bit5 : s.p.getLsbD 5 = true
  /-- I and D keep their reset value (10_state.md R29). -/
  interruptDisable : s.flag .i = false
  decimal : s.flag .d = false
  /-- B is set exactly while the status is Breakpointed (40_core_tick.md R131, 60_exceptions.md R305). -/
  breakFlag : s.flag .b = true ↔ s.status = .breakpointed
  /-- While Running, the instruction at PC lies wholly below `PROG_END` (40_core_tick.md R132). -/
  below : s.status = .running →
    ∀ k, k ≤ operandCount (s.read s.pc) → (s.pc.toNat + k) % 65536 < s.cfg.progEnd

/-! ### Conditions and the end of a run -/

/-- The four abnormal conditions (60_exceptions.md R300). -/
inductive Condition where
  | addressError | endOfProgram | unknownOpcode | breakpoint
  deriving DecidableEq, Repr

/-- "only `AddressError` should be treated as an unrecoverable fault" (60_exceptions.md R300). -/
def Condition.fatal : Condition → Bool
  | .addressError => true
  | .endOfProgram | .unknownOpcode | .breakpoint => false

/-- The condition of an executed instruction, fixed by its opcode (60_exceptions.md R308). -/
def conditionOf (i : Instr) : Option Condition :=
  if i.op = .unknown then some .unknownOpcode else if i.op = .brk then some .breakpoint else none

/-- The end of a run: Halted is the only final status (60_exceptions.md R320). -/
def State.Final (s : State) : Prop := s.status = .halted

/-- A safe step: it answers a next state, neither a fault nor a refusal. -/
def Answers (o : Host.Outcome State Fault Refusal) : Prop := ∃ t, o = .next t

/-! ### The resolver, from the table of 30_encoding.md R82 -/

/-- The result kinds of the resolver (00_scope.md R14). -/
inductive Resolved where
  | none
  | imm (v : Byte)
  | rel (d : Byte)
  | addr (ea : Addr)
  deriving DecidableEq, Repr

/-- `WordZP(p)` of 30_encoding.md R94, in natural numbers. -/
def wordZPAt (m : Memory) (p : Nat) : Nat := (m.get (p % 256)).toNat + 256 * (m.get ((p + 1) % 256)).toNat

/-- `Word16(p)` of 30_encoding.md R94, in natural numbers. -/
def word16At (m : Memory) (p : Nat) : Nat := (m.get (p % 65536)).toNat + 256 * (m.get ((p + 1) % 65536)).toNat

/-- `Resolve(mode, IA)`: the row of 30_encoding.md R82's table for a mode, in natural numbers with every reduction
written out; `b1` and `b2` are read at `IA + 1` and `IA + 2`. -/
def resolve (mode : Mode) (ia : Addr) (s : State) : Resolved :=
  let b1 := s.mem.get ((ia.toNat + 1) % 65536)
  let b2 := s.mem.get ((ia.toNat + 2) % 65536)
  let base := b1.toNat + 256 * b2.toNat
  let addr (n : Nat) : Resolved := .addr (BitVec.ofNat 16 n)
  match mode with
  | .imp | .acc => .none
  | .imm => .imm b1
  | .zp => addr b1.toNat
  | .zpx => addr ((b1.toNat + s.x.toNat) % 256)
  | .zpy => addr ((b1.toNat + s.y.toNat) % 256)
  | .rel => .rel b1
  | .abs => addr base
  | .absx => addr ((base + s.x.toNat) % 65536)
  | .absy => addr ((base + s.y.toNat) % 65536)
  | .ind => addr (word16At s.mem base)
  | .indx => addr (wordZPAt s.mem ((b1.toNat + s.x.toNat) % 256))
  | .indy => addr ((wordZPAt s.mem b1.toNat + s.y.toNat) % 65536)

/-- What a source operand form resolves to in the machine. -/
def resolvedSrc (src : Src) (s : State) : Resolved :=
  match src with
  | .imm v => .imm v
  | .mem m => .addr (m.ea s)

/-- What the machine's operand form of an instruction resolves to: the address or byte its meaning uses. -/
def resolvedOf (i : Instr) (s : State) : Resolved :=
  match i with
  | .lda src | .ldx src | .ldy src | .and src | .adc src | .sbc src | .cmp src | .cpx src | .cpy src =>
    resolvedSrc src s
  | .sta m | .stx m | .sty m | .inc m | .dec m | .bit m | .lsr m => .addr (m.ea s)
  | .bcc d | .bcs d | .beq d | .bne d | .bpl d => .rel d
  | .jmp t | .jsr t => .addr t
  | .jmpInd ptr => .addr (s.word16 ptr)
  | .lsrA | .tax | .txa | .inx | .iny | .dex | .rts | .pha | .pla | .sec | .clc | .nop | .brk | .unknown _ => .none

/-! ### Who writes and reads what, from the tables of 10_state.md R22 to R27 -/

/-- The writers of a register (R22 to R25), LSR counting only with the accumulator operand. -/
def Reg.writtenBy (r : Reg) (i : Instr) : Bool :=
  match r with
  | .a => [Op.lda, .txa, .and, .adc, .sbc, .pla].contains i.op || i == .lsrA
  | .x => [Op.ldx, .tax, .inx, .dex].contains i.op
  | .y => [Op.ldy, .iny].contains i.op
  | .sp => [Op.jsr, .rts, .pha, .pla, .brk].contains i.op

/-- The readers of a register (R22 to R25), the indexed modes among them. -/
def Reg.readBy (r : Reg) (i : Instr) : Bool :=
  match r with
  | .a => [Op.sta, .tax, .and, .bit, .adc, .sbc, .cmp, .pha].contains i.op || i == .lsrA
  | .x => [Op.stx, .txa, .cpx, .inx, .dex].contains i.op || [Mode.zpx, .absx, .indx].contains i.mode
  | .y => [Op.sty, .cpy, .iny].contains i.op || [Mode.zpy, .absy, .indy].contains i.mode
  | .sp => [Op.jsr, .rts, .pha, .pla, .brk].contains i.op

/-- The writers of a flag, the column of R27's table. -/
def Flag.writtenBy (f : Flag) (i : Instr) : Bool :=
  match f with
  | .c => [Op.adc, .sbc, .cmp, .cpx, .cpy, .lsr, .sec, .clc].contains i.op
  | .z | .n =>
    [Op.lda, .ldx, .ldy, .tax, .txa, .inx, .iny, .dex, .dec, .inc, .and, .bit, .lsr, .adc, .sbc, .cmp, .cpx, .cpy,
      .pla].contains i.op
  | .i | .d => false
  | .b => [Op.brk].contains i.op
  | .v => [Op.adc, .sbc, .bit].contains i.op

/-- The instructions that write memory (20_memory.md R55): stores, read-modify-writes on memory and pushes, and the
pops under `CLEAR_ON_POP`. -/
def writesMemory (clearOnPop : Bool) (i : Instr) : Bool :=
  [Op.sta, .stx, .sty, .inc, .dec, .pha, .jsr, .brk].contains i.op ||
    (i.op == .lsr && i != .lsrA) || (clearOnPop && [Op.pla, .rts].contains i.op)

/-- Whether an instruction transfers control in a state: a branch whose condition holds, JMP, JSR and RTS
(40_core_tick.md R126, R127). -/
def transfers (i : Instr) (s : State) : Bool :=
  match i.op with
  | .bcc => !s.flag .c
  | .bcs => s.flag .c
  | .beq => s.flag .z
  | .bne => !s.flag .z
  | .bpl => !s.flag .n
  | .jmp | .jsr | .rts => true
  | _ => false

/-! ### Sequences of pushes and pops (20_memory.md R69) -/

/-- Push a list of bytes, the first of it first. -/
def State.pushAll (s : State) (vs : List Byte) : State :=
  match vs with
  | [] => s
  | v :: rest => (s.push v).pushAll rest

/-- Pop `n` bytes: the values in the order they come, and the state after. -/
def State.popAll (s : State) (n : Nat) : List Byte × State :=
  match n with
  | 0 => ([], s)
  | k + 1 => let (vs, t) := s.popState.popAll k; (s.popValue :: vs, t)

end Sys2Proof.Machine
end

