-- ==== Sys2Proof/Certificates/Slice0/Obligations.lean ====
section
/-! DEFINITION. The statements for the provers, from the numbered rules of spec/. A statement that rests on a
decision the spec marks as its own (a D<n> of 92_eei_decisions.md, or a rule marked derived) says so. Every statement
holds for every value of the launch parameters in `cfg` (log 1). The opcode bytes in the HasEncodings clauses are the
ones each instruction rule lists; the spec takes that list by its own decisions D2 and D3 (30_encoding.md R99). -/

open Sys2Proof Sys2Proof.Machine

/-! ### Encoding -/

/-- Decoding the encoding of a well-formed instruction gives it back, with every operand at every value, and takes
exactly its bytes (30_encoding.md sections 1 and 3; the opcode bytes are the spec's decision D3). -/
def Obligations.DecodeOfEncodeIsTheInstruction : Prop :=
  ∀ i : Instr, WellFormed i = true →
    ∃ bytes, encode i = some bytes ∧ ∀ rest, decode (bytes ++ rest) = .ok (i, rest)

/-- What the decoder answers is a well-formed instruction, and the bytes it took are that instruction's encoding: each
byte string has one meaning (30_encoding.md sections 1 and 3; D2, D3). -/
def Obligations.DecodedBytesAreTheEncoding : Prop :=
  ∀ (bytes rest : List Byte) (i : Instr), decode bytes = .ok (i, rest) →
    WellFormed i = true ∧ ∃ front, encode i = some front ∧ bytes = front ++ rest

/-- R103 and R95: the opcode byte alone fixes the length `1 + n(mode)`, whatever bytes follow it; the modes' counts
are the ones R95 lists, with R82's for the three it adds. -/
def Obligations.LengthComesFromTheOpcodeByte : Prop :=
  (∀ (op : Byte) (rest rest' : List Byte) (i : Instr), decode (op :: rest) = .ok (i, rest') →
    rest.length = (dispatch op).1.count + rest'.length ∧ i.mode = (dispatch op).1) ∧
  (∀ m ∈ [Mode.imm, .zp, .indx, .indy, .zpx, .zpy, .rel], m.count = 1) ∧
  (∀ m ∈ [Mode.abs, .absx, .absy, .ind], m.count = 2) ∧
  (∀ m ∈ [Mode.imp, .acc], m.count = 0)

/-- Decoding refuses a list of bytes only because bytes are missing, never for a byte's value (30_encoding.md section
3; refusing for missing operand bytes is the model's reading, log 10). -/
def Obligations.DecodingFailsOnlyForMissingBytes : Prop :=
  decode [] = .error .noOpcodeByte ∧
  ∀ (op : Byte) (rest : List Byte),
    if rest.length < operandCount op then decode (op :: rest) = .error (.missingOperandByte op)
    else ∃ i, decode (op :: rest) = .ok (i, rest.drop (operandCount op))

/-- Every opcode byte that is not populated maps to (IMP, UNKNOWN) and consumes no operand byte. Which bytes are
populated is read from the matrix of R101 (D2, D3), not from the dispatch table. -/
def Obligations.UnlistedBytesAreUnknown : Prop :=
  ∀ op : Byte, populated op = false →
    dispatch op = (.imp, .unknown) ∧ ∀ rest, decode (op :: rest) = .ok (.unknown op, rest)

/-- Each populated entry pairs an operation with a mode the operation gives a meaning to (30_encoding.md section 3,
a check the spec derives): data reads with IMM or an address, stores and read-modify-writes with an address, branches
with REL, JMP with ABS or IND, JSR with ABS, every other operation with IMP, LSR also with ACC. There are 104 populated
entries, and 152 bytes are not populated. -/
def Obligations.PopulatedEntriesPairAsTheSpecSays : Prop :=
  (∀ r ∈ rows,
    (r.op ∈ [Op.lda, .ldx, .ldy, .and, .bit, .adc, .sbc, .cmp, .cpx, .cpy] →
      r.mode ∈ [Mode.imm, .zp, .zpx, .zpy, .abs, .absx, .absy, .indx, .indy]) ∧
    (r.op ∈ [Op.sta, .stx, .sty, .inc, .dec] →
      r.mode ∈ [Mode.zp, .zpx, .zpy, .abs, .absx, .absy, .indx, .indy]) ∧
    (r.op = .lsr → r.mode ∈ [Mode.acc, .zp, .zpx, .abs, .absx]) ∧
    (r.op ∈ [Op.bcc, .bcs, .beq, .bne, .bpl] → r.mode = .rel) ∧
    (r.op = .jmp → r.mode ∈ [Mode.abs, .ind]) ∧
    (r.op = .jsr → r.mode = .abs) ∧
    (r.op ∈ [Op.tax, .txa, .inx, .iny, .dex, .rts, .pha, .pla, .sec, .clc, .nop, .brk] → r.mode = .imp)) ∧
  rows.length = 104 ∧
  ((List.range 256).filter (fun n => !populated (BitVec.ofNat 8 n))).length = 152

/-- A few words written out from the spec's encodings decode to the instructions they stand for (a sanity check;
30_encoding.md section 5's examples). -/
def Obligations.SampleWordsDecode : Prop :=
  decode [0xA9, 0x05] = .ok (.lda (.imm 0x05), []) ∧
  decode [0x85, 0x10] = .ok (.sta (.zp 0x10), []) ∧
  decode [0x20, 0x10, 0x06] = .ok (.jsr 0x0610, []) ∧
  decode [0x6C, 0x20, 0x06] = .ok (.jmpInd 0x0620, []) ∧
  decode [0xB1, 0x20] = .ok (.lda (.mem (.indy 0x20)), []) ∧
  decode [0x4A] = .ok (.lsrA, []) ∧
  decode [0x02, 0xEA] = .ok (.unknown 0x02, [0xEA])

/-! ### The addressing-mode resolver -/

/-- The machine's operand of the instruction at PC is the row of R82's table for the mode of the opcode byte there,
in every state, at every PC. (The pointer reads of INDX, INDY and IND wrap as the spec decides in D11 and D12.) -/
def Obligations.OperandsResolveAsTheModeTableSays : Prop :=
  ∀ s : State, resolvedOf (s.instrAt s.pc) s = resolve (dispatch (s.read s.pc)).1 s.pc s

/-- R84 to R89: what the modes without indirection give for the instruction at PC, and how many operand bytes they
consume, in every state: the operand byte itself, a zero-page address, an indexed one that wraps in the zero page, the
displacement, an absolute address, an indexed one that wraps at the top of memory. -/
def Obligations.DirectModesGiveTheirOperand : Prop :=
  ∀ s : State,
    let b1 := s.read (s.pc + 1)
    let b2 := s.read (s.pc + 2)
    let i := s.instrAt s.pc
    let gives (n : Nat) (ea : Nat) : Prop := resolvedOf i s = .addr (BitVec.ofNat 16 ea) ∧ i.count = n
    match (dispatch (s.read s.pc)).1 with
    | .imm => resolvedOf i s = .imm b1 ∧ i.count = 1
    | .zp => gives 1 b1.toNat
    | .zpx => gives 1 ((b1.toNat + s.x.toNat) % 256)
    | .zpy => gives 1 ((b1.toNat + s.y.toNat) % 256)
    | .rel => resolvedOf i s = .rel b1 ∧ i.count = 1
    | .abs => gives 2 (b1.toNat + 256 * b2.toNat)
    | .absx => gives 2 ((b1.toNat + 256 * b2.toNat + s.x.toNat) % 65536)
    | .absy => gives 2 ((b1.toNat + 256 * b2.toNat + s.y.toNat) % 65536)
    | .imp | .acc => resolvedOf i s = .none ∧ i.count = 0
    | .ind | .indx | .indy => True

/-! ### Instructions: result, completion and frame -/

/-- R171, R172, R173: LDA, LDX and LDY copy the resolved value into the register and make Z and N report it; nothing
else changes but PC. Every operand form, and the encodings the rules list. -/
def Obligations.LoadsCopyTheOperand : Prop :=
  (∀ (src : Src) (s : State),
    (∃ t, exec (.lda src) s = .next t ∧ t.a = src.value s ∧ ReportsZN (src.value s) t ∧
      AdvancesBy src.mode.count s t ∧ Frame [.a] [.z, .n] [] [] s t) ∧
    (∃ t, exec (.ldx src) s = .next t ∧ t.x = src.value s ∧ ReportsZN (src.value s) t ∧
      AdvancesBy src.mode.count s t ∧ Frame [.x] [.z, .n] [] [] s t) ∧
    (∃ t, exec (.ldy src) s = .next t ∧ t.y = src.value s ∧ ReportsZN (src.value s) t ∧
      AdvancesBy src.mode.count s t ∧ Frame [.y] [.z, .n] [] [] s t)) ∧
  HasEncodings .lda [(.imm, 0xA9), (.zp, 0xA5), (.zpx, 0xB5), (.abs, 0xAD), (.absx, 0xBD), (.absy, 0xB9),
    (.indx, 0xA1), (.indy, 0xB1)] ∧
  HasEncodings .ldx [(.imm, 0xA2), (.zp, 0xA6), (.zpy, 0xB6), (.abs, 0xAE), (.absy, 0xBE)] ∧
  HasEncodings .ldy [(.imm, 0xA0), (.zp, 0xA4), (.zpx, 0xB4), (.abs, 0xAC), (.absx, 0xBC)]

/-- R174, R175, R176: STA, STX and STY write the register to the byte at the effective address; no flag, no register
and no other byte of memory changes. -/
def Obligations.StoresWriteOneByte : Prop :=
  (∀ (dst : MemOperand) (s : State),
    (∃ t, exec (.sta dst) s = .next t ∧ t.read (dst.ea s) = s.a ∧ AdvancesBy dst.mode.count s t ∧
      Frame [] [] [dst.ea s] [] s t) ∧
    (∃ t, exec (.stx dst) s = .next t ∧ t.read (dst.ea s) = s.x ∧ AdvancesBy dst.mode.count s t ∧
      Frame [] [] [dst.ea s] [] s t) ∧
    (∃ t, exec (.sty dst) s = .next t ∧ t.read (dst.ea s) = s.y ∧ AdvancesBy dst.mode.count s t ∧
      Frame [] [] [dst.ea s] [] s t)) ∧
  HasEncodings .sta [(.zp, 0x85), (.zpx, 0x95), (.abs, 0x8D), (.absx, 0x9D), (.absy, 0x99), (.indx, 0x81),
    (.indy, 0x91)] ∧
  HasEncodings .stx [(.zp, 0x86), (.zpy, 0x96), (.abs, 0x8E)] ∧
  HasEncodings .sty [(.zp, 0x84), (.zpx, 0x94), (.abs, 0x8C)]

/-- R177, R178: TAX and TXA copy between A and X and make Z and N report the destination. -/
def Obligations.TransfersCopyBetweenAAndX : Prop :=
  (∀ s : State,
    (∃ t, exec .tax s = .next t ∧ t.x = s.a ∧ ReportsZN s.a t ∧ AdvancesBy 0 s t ∧
      Frame [.x] [.z, .n] [] [] s t) ∧
    (∃ t, exec .txa s = .next t ∧ t.a = s.x ∧ ReportsZN s.x t ∧ AdvancesBy 0 s t ∧
      Frame [.a] [.z, .n] [] [] s t)) ∧
  HasEncodings .tax [(.imp, 0xAA)] ∧ HasEncodings .txa [(.imp, 0x8A)]

/-- R191, R192, R193: INX, INY and DEX add or subtract 1 mod 256 and make Z and N report the result; C and V are among
the flags that keep their value. -/
def Obligations.RegisterIncrementsWrap : Prop :=
  (∀ s : State,
    (∃ t, exec .inx s = .next t ∧ t.x.toNat = (s.x.toNat + 1) % 256 ∧ ReportsZN t.x t ∧ AdvancesBy 0 s t ∧
      Frame [.x] [.z, .n] [] [] s t) ∧
    (∃ t, exec .iny s = .next t ∧ t.y.toNat = (s.y.toNat + 1) % 256 ∧ ReportsZN t.y t ∧ AdvancesBy 0 s t ∧
      Frame [.y] [.z, .n] [] [] s t) ∧
    (∃ t, exec .dex s = .next t ∧ t.x.toNat = (s.x.toNat + 255) % 256 ∧ ReportsZN t.x t ∧ AdvancesBy 0 s t ∧
      Frame [.x] [.z, .n] [] [] s t)) ∧
  HasEncodings .inx [(.imp, 0xE8)] ∧ HasEncodings .iny [(.imp, 0xC8)] ∧ HasEncodings .dex [(.imp, 0xCA)]

/-- R194, R195: INC and DEC write the byte at the effective address plus or minus 1 mod 256 and make Z and N report it;
no register and no other byte changes. -/
def Obligations.MemoryIncrementsWrap : Prop :=
  (∀ (m : MemOperand) (s : State),
    (∃ t, exec (.inc m) s = .next t ∧ (t.read (m.ea s)).toNat = ((s.read (m.ea s)).toNat + 1) % 256 ∧
      ReportsZN (t.read (m.ea s)) t ∧ AdvancesBy m.mode.count s t ∧ Frame [] [.z, .n] [m.ea s] [] s t) ∧
    (∃ t, exec (.dec m) s = .next t ∧ (t.read (m.ea s)).toNat = ((s.read (m.ea s)).toNat + 255) % 256 ∧
      ReportsZN (t.read (m.ea s)) t ∧ AdvancesBy m.mode.count s t ∧ Frame [] [.z, .n] [m.ea s] [] s t)) ∧
  HasEncodings .inc [(.zp, 0xE6), (.zpx, 0xF6), (.abs, 0xEE), (.absx, 0xFE)] ∧
  HasEncodings .dec [(.zp, 0xC6), (.zpx, 0xD6), (.abs, 0xCE), (.absx, 0xDE)]

/-- R196: AND leaves in A, bit by bit, A and the operand, and makes Z and N report it. -/
def Obligations.AndMasksTheAccumulator : Prop :=
  (∀ (src : Src) (s : State),
    ∃ t, exec (.and src) s = .next t ∧
      (∀ k, t.a.getLsbD k = (s.a.getLsbD k && (src.value s).getLsbD k)) ∧ ReportsZN t.a t ∧
      AdvancesBy src.mode.count s t ∧ Frame [.a] [.z, .n] [] [] s t) ∧
  HasEncodings .and [(.imm, 0x29), (.zp, 0x25), (.zpx, 0x35), (.abs, 0x2D), (.absx, 0x3D), (.absy, 0x39),
    (.indx, 0x21), (.indy, 0x31)]

/-- R197: BIT sets Z where A and the byte share no bit, copies bits 6 and 7 of the byte into V and N, and changes no
register and no byte. -/
def Obligations.BitTestsWithoutWriting : Prop :=
  (∀ (m : MemOperand) (s : State),
    ∃ t, exec (.bit m) s = .next t ∧
      (t.flag .z = true ↔ ∀ k, (s.a.getLsbD k && (s.read (m.ea s)).getLsbD k) = false) ∧
      t.flag .v = (s.read (m.ea s)).getLsbD 6 ∧ t.flag .n = (s.read (m.ea s)).getLsbD 7 ∧
      AdvancesBy m.mode.count s t ∧ Frame [] [.z, .v, .n] [] [] s t) ∧
  HasEncodings .bit [(.zp, 0x24), (.abs, 0x2C)]

/-- R198, R199: LSR halves A or the byte at the effective address, C becomes the outgoing bit 0, Z reports the result
and N is 0. -/
def Obligations.LsrHalvesIntoCarry : Prop :=
  (∀ s : State, ∃ t, exec .lsrA s = .next t ∧ t.a.toNat = s.a.toNat / 2 ∧
    (t.flag .c = true ↔ s.a.toNat % 2 = 1) ∧ ReportsZN t.a t ∧ t.flag .n = false ∧ AdvancesBy 0 s t ∧
    Frame [.a] [.c, .z, .n] [] [] s t) ∧
  (∀ (m : MemOperand) (s : State), ∃ t, exec (.lsr m) s = .next t ∧
    (t.read (m.ea s)).toNat = (s.read (m.ea s)).toNat / 2 ∧
    (t.flag .c = true ↔ (s.read (m.ea s)).toNat % 2 = 1) ∧ ReportsZN (t.read (m.ea s)) t ∧ t.flag .n = false ∧
    AdvancesBy m.mode.count s t ∧ Frame [] [.c, .z, .n] [m.ea s] [] s t) ∧
  HasEncodings .lsr [(.acc, 0x4A), (.zp, 0x46), (.zpx, 0x56), (.abs, 0x4E), (.absx, 0x5E)]

/-- R211: ADC leaves in A the sum of A, the operand and the carry-in, truncated; C is the sum above 255, V the signed
overflow, Z and N report the truncated sum. -/
def Obligations.AdcAddsWithCarry : Prop :=
  (∀ (src : Src) (s : State),
    let sum := s.a.toNat + (src.value s).toNat + (s.flag .c).toNat
    ∃ t, exec (.adc src) s = .next t ∧ t.a.toNat = sum % 256 ∧ (t.flag .c = true ↔ 255 < sum) ∧
      (t.flag .v = true ↔ s.a.msb = (src.value s).msb ∧ t.a.msb ≠ s.a.msb) ∧ ReportsZN t.a t ∧
      AdvancesBy src.mode.count s t ∧ Frame [.a] [.c, .z, .v, .n] [] [] s t) ∧
  HasEncodings .adc [(.imm, 0x69), (.zp, 0x65), (.zpx, 0x75), (.abs, 0x6D), (.absx, 0x7D), (.absy, 0x79),
    (.indx, 0x61), (.indy, 0x71)]

/-- R212: SBC is ADC with the one's complement of the operand: in A the sum of A, `255 - m` and the carry-in,
truncated; C is that sum above 255, V the overflow of those two operands, Z and N report the result. -/
def Obligations.SbcAddsTheComplement : Prop :=
  (∀ (src : Src) (s : State),
    let sum := s.a.toNat + (255 - (src.value s).toNat) + (s.flag .c).toNat
    ∃ t, exec (.sbc src) s = .next t ∧ t.a.toNat = sum % 256 ∧ (t.flag .c = true ↔ 255 < sum) ∧
      (t.flag .v = true ↔ s.a.msb ≠ (src.value s).msb ∧ t.a.msb ≠ s.a.msb) ∧ ReportsZN t.a t ∧
      AdvancesBy src.mode.count s t ∧ Frame [.a] [.c, .z, .v, .n] [] [] s t) ∧
  HasEncodings .sbc [(.imm, 0xE9), (.zp, 0xE5), (.zpx, 0xF5), (.abs, 0xED), (.absx, 0xFD), (.absy, 0xF9),
    (.indx, 0xE1), (.indy, 0xF1)]

/-- R213, R214, R215: CMP, CPX and CPY set C where the register is at least the operand (unsigned), Z where they are
equal, N from bit 7 of the difference; no register, no byte and no V. -/
def Obligations.ComparesSetCarryZeroNegative : Prop :=
  (∀ (src : Src) (s : State),
    (∃ t, exec (.cmp src) s = .next t ∧ ReportsCompare s.a (src.value s) t ∧ AdvancesBy src.mode.count s t ∧
      Frame [] [.c, .z, .n] [] [] s t) ∧
    (∃ t, exec (.cpx src) s = .next t ∧ ReportsCompare s.x (src.value s) t ∧ AdvancesBy src.mode.count s t ∧
      Frame [] [.c, .z, .n] [] [] s t) ∧
    (∃ t, exec (.cpy src) s = .next t ∧ ReportsCompare s.y (src.value s) t ∧ AdvancesBy src.mode.count s t ∧
      Frame [] [.c, .z, .n] [] [] s t)) ∧
  HasEncodings .cmp [(.imm, 0xC9), (.zp, 0xC5), (.zpx, 0xD5), (.abs, 0xCD), (.absx, 0xDD), (.absy, 0xD9),
    (.indx, 0xC1), (.indy, 0xD1)] ∧
  HasEncodings .cpx [(.imm, 0xE0), (.zp, 0xE4), (.abs, 0xEC)] ∧
  HasEncodings .cpy [(.imm, 0xC0), (.zp, 0xC4), (.abs, 0xCC)]

/-- BCC, BCS, BEQ, BNE, BPL: PC becomes `IA + 2 + sext(d)`, plus 1 for a displacement whose bit 7 is clear under
`BRANCH_FWD_BIAS`, where the condition holds, and `IA + 2` where it does not; nothing else changes. (The target rests
on the spec's decision D6, the opcode bytes on D3.) -/
def Obligations.BranchesGoToTheirTarget : Prop :=
  (∀ (d : Byte) (s : State),
    (∃ t, exec (.bcc d) s = .next t ∧ GoesTo (!s.flag .c) d s t ∧ Frame [] [] [] [] s t) ∧
    (∃ t, exec (.bcs d) s = .next t ∧ GoesTo (s.flag .c) d s t ∧ Frame [] [] [] [] s t) ∧
    (∃ t, exec (.beq d) s = .next t ∧ GoesTo (s.flag .z) d s t ∧ Frame [] [] [] [] s t) ∧
    (∃ t, exec (.bne d) s = .next t ∧ GoesTo (!s.flag .z) d s t ∧ Frame [] [] [] [] s t) ∧
    (∃ t, exec (.bpl d) s = .next t ∧ GoesTo (!s.flag .n) d s t ∧ Frame [] [] [] [] s t)) ∧
  HasEncodings .bcc [(.rel, 0x90)] ∧ HasEncodings .bcs [(.rel, 0xB0)] ∧ HasEncodings .beq [(.rel, 0xF0)] ∧
  HasEncodings .bne [(.rel, 0xD0)] ∧ HasEncodings .bpl [(.rel, 0x10)]

/-- JMP absolute lands exactly on its operand word, JMP indirect exactly on the word at the pointer, whose high byte
wraps mod 65536; nothing else changes. (The landing is the spec's decision D5, the pointer's wrap D12.) -/
def Obligations.JumpsLandOnTheirTarget : Prop :=
  (∀ (w : Addr) (s : State),
    (∃ t, exec (.jmp w) s = .next t ∧ t.pc = w ∧ Frame [] [] [] [] s t) ∧
    (∃ t, exec (.jmpInd w) s = .next t ∧
      t.pc.toNat = (s.read w).toNat + 256 * (s.read (BitVec.ofNat 16 ((w.toNat + 1) % 65536))).toNat ∧
      Frame [] [] [] [] s t)) ∧
  HasEncodings .jmp [(.abs, 0x4C), (.ind, 0x6C)]

/-- JSR stores the high byte of `IA + 2` at the stack byte SP names and its low byte at the next one down (wrapping in
page 1), leaves SP two lower and jumps; nothing else changes. (The pushed value is the spec's decision D7.) -/
def Obligations.JsrPushesTheReturnAddress : Prop :=
  (∀ (w : Addr) (s : State),
    ∃ t, exec (.jsr w) s = .next t ∧ t.pc = w ∧ t.sp = s.sp - 2 ∧
      (t.read (stackAddr s.sp)).toNat = (s.pc.toNat + 2) % 65536 / 256 ∧
      (t.read (stackAddr (s.sp - 1))).toNat = (s.pc.toNat + 2) % 256 ∧
      Frame [.sp] [] [stackAddr s.sp, stackAddr (s.sp - 1)] [] s t) ∧
  HasEncodings .jsr [(.abs, 0x20)]

/-- RTS goes to the popped word plus 1 (mod 65536), low byte from just above SP and high byte from the next, and leaves
SP two higher; memory is unchanged, but for the two popped bytes, cleared under `CLEAR_ON_POP`. (The plus 1 is the
spec's decision D7, the pop order D8, the policy D9.) -/
def Obligations.RtsReturnsPastThePoppedWord : Prop :=
  (∀ s : State,
    ∃ t, exec .rts s = .next t ∧ t.sp = s.sp + 2 ∧
      t.pc.toNat =
        ((s.read (stackAddr (s.sp + 1))).toNat + 256 * (s.read (stackAddr (s.sp + 2))).toNat + 1) % 65536 ∧
      (if s.cfg.clearOnPop then
        t.read (stackAddr (s.sp + 1)) = 0x00 ∧ t.read (stackAddr (s.sp + 2)) = 0x00 ∧
          Frame [.sp] [] [stackAddr (s.sp + 1), stackAddr (s.sp + 2)] [] s t
      else Frame [.sp] [] [] [] s t)) ∧
  HasEncodings .rts [(.imp, 0x60)]

/-- R251: PHA stores A at the stack byte SP names and leaves SP one lower (mod 256); no flag. -/
def Obligations.PhaPushesTheAccumulator : Prop :=
  (∀ s : State,
    ∃ t, exec .pha s = .next t ∧ t.read (stackAddr s.sp) = s.a ∧ t.sp.toNat = (s.sp.toNat + 255) % 256 ∧
      AdvancesBy 0 s t ∧ Frame [.sp] [] [stackAddr s.sp] [] s t) ∧
  HasEncodings .pha [(.imp, 0x48)]

/-- PLA moves the byte just above SP into A, makes Z and N report it and leaves SP one higher (mod 256); memory is
unchanged, but for the popped byte, cleared under `CLEAR_ON_POP`. (The flags are the spec's decision D10, the pop order
D8, the policy D9.) -/
def Obligations.PlaPullsTheAccumulator : Prop :=
  (∀ s : State,
    ∃ t, exec .pla s = .next t ∧ t.a = s.read (stackAddr (s.sp + 1)) ∧ ReportsZN t.a t ∧
      t.sp.toNat = (s.sp.toNat + 1) % 256 ∧ AdvancesBy 0 s t ∧
      (if s.cfg.clearOnPop then
        t.read (stackAddr (s.sp + 1)) = 0x00 ∧
          Frame [.a, .sp] [.z, .n] [stackAddr (s.sp + 1)] [] s t
      else Frame [.a, .sp] [.z, .n] [] [] s t)) ∧
  HasEncodings .pla [(.imp, 0x68)]

/-- R253, R254: SEC sets C and CLC clears it; every other flag keeps its value. -/
def Obligations.SecAndClcWriteCarryAlone : Prop :=
  (∀ s : State,
    (∃ t, exec .sec s = .next t ∧ t.flag .c = true ∧ AdvancesBy 0 s t ∧ Frame [] [.c] [] [] s t) ∧
    (∃ t, exec .clc s = .next t ∧ t.flag .c = false ∧ AdvancesBy 0 s t ∧ Frame [] [.c] [] [] s t)) ∧
  HasEncodings .sec [(.imp, 0x38)] ∧ HasEncodings .clc [(.imp, 0x18)]

/-- R255: NOP changes PC alone, to `IA + 1`. -/
def Obligations.NopOnlyAdvances : Prop :=
  (∀ s : State, ∃ t, exec .nop s = .next t ∧ AdvancesBy 0 s t ∧ Frame [] [] [] [] s t) ∧
  HasEncodings .nop [(.imp, 0xEA)]

/-- BRK stores the high and low bytes of `IA` and then P at the three stack bytes from SP down (wrapping in page 1),
leaves SP three lower, sets B and advances to `IA + 1`; the pushed P is the one before B is set. (What is pushed is the
spec's decision D13, the length D14.) -/
def Obligations.BrkPushesPcAndFlags : Prop :=
  (∀ s : State,
    ∃ t, exec .brk s = .next t ∧ t.flag .b = true ∧ t.sp = s.sp - 3 ∧ AdvancesBy 0 s t ∧
      (t.read (stackAddr s.sp)).toNat = s.pc.toNat / 256 ∧
      (t.read (stackAddr (s.sp - 1))).toNat = s.pc.toNat % 256 ∧
      t.read (stackAddr (s.sp - 2)) = s.readP ∧
      Frame [.sp] [.b] [stackAddr s.sp, stackAddr (s.sp - 1), stackAddr (s.sp - 2)] [] s t) ∧
  HasEncodings .brk [(.imp, 0x00)]

/-- R262: UNKNOWN emits `UnknownOpcode(op, IA)` and changes PC alone, to `IA + 1`. -/
def Obligations.UnknownIsANoOpWithADiagnostic : Prop :=
  (∀ (op : Byte) (s : State),
    ∃ t, exec (.unknown op) s = .next t ∧ AdvancesBy 0 s t ∧ Frame [] [] [] [.unknownOpcode op s.pc] s t) ∧
  (∀ op : Byte, dispatch op = (.imp, .unknown) ↔ populated op = false)

/-! ### Memory and the stack -/

/-- R51: a read returns the stored byte and changes nothing, a write changes only the addressed byte, and writing again
changes nothing more. -/
def Obligations.AWriteChangesOneByte : Prop :=
  ∀ (s : State) (q : Addr) (v : Byte),
    (s.write q v).read q = v ∧ (∀ e, e ≠ q → (s.write q v).read e = s.read e) ∧
    (s.write q v).write q v = s.write q v ∧ { s.write q v with mem := s.mem } = s

/-- R50: the port's read and write fail with AddressError exactly outside `[0, 65535]` and otherwise never fail; and no
instruction of the block ends in a fault. -/
def Obligations.AddressErrorOnlyFromOutside : Prop :=
  (∀ (m : Memory) (addr : Int) (v : Byte),
    if 0 ≤ addr ∧ addr ≤ 65535 then
      portRead m addr = .ok (m.get addr.toNat) ∧
        ∃ m', portWrite m addr v = .ok m' ∧ ∀ b : Nat, m'.get b = if (b : Int) = addr then v else m.get b
    else portRead m addr = .error (.addressError addr) ∧ portWrite m addr v = .error (.addressError addr)) ∧
  (∀ (i : Instr) (s : State) (f : Fault), exec i s ≠ .fault f)

/-- R58: Push writes the byte at `0x0100 + SP` and then decrements SP mod 256; nothing else changes, PC included. -/
def Obligations.PushWritesThenDecrements : Prop :=
  ∀ (s : State) (v : Byte),
    (∀ e : Addr, (s.push v).read e = if e.toNat = 0x0100 + s.sp.toNat then v else s.read e) ∧
    (s.push v).sp.toNat = (s.sp.toNat + 255) % 256 ∧ (s.push v).pc = s.pc ∧
    Frame [.sp] [] [stackAddr s.sp] [] s (s.push v)

/-- Push16 pushes the high byte, then the low byte, and Pop16 pops the low byte, then the high byte: the word comes
back and SP with it (20_memory.md section 4; it rests on the pop order, D8). -/
def Obligations.WordsPushHighByteFirst : Prop :=
  ∀ (s : State) (w : Addr),
    s.push16 w = (s.push (BitVec.ofNat 8 (w.toNat / 256))).push (BitVec.ofNat 8 (w.toNat % 256)) ∧
    (s.pop16Value.toNat = s.popValue.toNat + 256 * s.popState.popValue.toNat) ∧
    (s.push16 w).pop16Value = w ∧ (s.push16 w).pop16State.sp = s.sp

/-- Stack discipline: after N pushes, N pops give back SP, and the first 256 bytes popped are the pushed bytes in
reverse order (all of them where N is at most 256), under either pop policy (20_memory.md section 4, a property the
spec derives; it rests on the pop order, D8). -/
def Obligations.PopsReverseThePushes : Prop :=
  ∀ (s : State) (vs : List Byte),
    ((s.pushAll vs).popAll vs.length).2.sp = s.sp ∧
    (((s.pushAll vs).popAll vs.length).1.take 256) = (vs.reverse.take 256) ∧
    (vs.length ≤ 256 → ((s.pushAll vs).popAll vs.length).1 = vs.reverse)

/-- JSR followed by an RTS that finds the stack as JSR left it returns to the instruction after the JSR, `IA + 3`, with
SP as before (45_control_transfer.md section 3, a property the spec derives; it rests on D7, D8). -/
def Obligations.RtsUndoesJsr : Prop :=
  ∀ (w : Addr) (s t u : State), exec (.jsr w) s = .next t → u.sp = t.sp → (∀ e, u.read e = t.read e) →
    ∃ v, exec .rts u = .next v ∧ v.pc.toNat = (s.pc.toNat + 3) % 65536 ∧ v.sp = s.sp

/-! ### The ALU -/

/-- R151: `SetZN(r)` writes Z and N and no other bit, register or byte. -/
def Obligations.SetZNWritesTwoFlags : Prop :=
  ∀ (s : State) (r : Byte), ReportsZN r (s.setZN r) ∧ Frame [] [.z, .n] [] [] s (s.setZN r) ∧
    (s.setZN r).pc = s.pc

/-- R152: `Add8`'s result is the exact sum mod 256, its carry the sum above 255, its overflow a result whose sign
differs from the sign the operands share, which is signed overflow: the signed sum with the carry-in lies outside
`-128..127`. -/
def Obligations.AddOverflowIsSignedOverflow : Prop :=
  ∀ (a m : Byte) (c : Bool),
    (add8 a m c).r.toNat = (a.toNat + m.toNat + c.toNat) % 256 ∧
    ((add8 a m c).c = true ↔ 255 < a.toNat + m.toNat + c.toNat) ∧
    ((add8 a m c).v = true ↔ a.msb = m.msb ∧ (add8 a m c).r.msb ≠ a.msb) ∧
    ((add8 a m c).v = true ↔
      a.toInt + m.toInt + c.toNat < -128 ∨ 127 < a.toInt + m.toInt + c.toNat)

/-- `Sub8`'s result is `(a - m - (1 - c)) mod 256`, its carry says that no borrow occurred, and its overflow is 1
exactly when the signed difference lies outside `-128..127` (41_alu_flags.md section 1, which the spec derives). -/
def Obligations.SubtractBorrowsAndOverflows : Prop :=
  ∀ (a m : Byte) (c : Bool),
    ((sub8 a m c).r.toNat : Int) = ((a.toNat : Int) - m.toNat - (1 - c.toNat)) % 256 ∧
    ((sub8 a m c).c = true ↔ 0 ≤ (a.toNat : Int) - m.toNat - (1 - c.toNat)) ∧
    ((sub8 a m c).v = true ↔
      a.toInt - m.toInt - (1 - c.toNat) < -128 ∨ 127 < a.toInt - m.toInt - (1 - c.toNat))

/-- SBC undoes ADC: from a cleared carry, adding any operand and then, with the carry set, subtracting the same value
restores A (41_alu_flags.md section 2, a property the spec derives). -/
def Obligations.SbcUndoesAdc : Prop :=
  ∀ (b : Byte) (s t u : State), s.flag .c = false → exec (.adc (.imm b)) s = .next t →
    exec .sec t = .next u → ∃ v, exec (.sbc (.imm b)) u = .next v ∧ v.a = s.a

/-! ### Who may write and read what -/

/-- Each of A, X, Y and SP is written only by the instructions the register tables name (10_state.md section 1, which
the spec derives from the instruction rules). -/
def Obligations.OnlyTheListedInstructionsWriteARegister : Prop :=
  ∀ (r : Reg) (i : Instr) (s t : State), exec i s = .next t → r.writtenBy i = false → t.reg r = s.reg r

/-- An instruction that does not read a register does the same whatever that register holds: its result differs in
that register alone, and there only if it does not write it (10_state.md section 1: the readers the spec lists). -/
def Obligations.OnlyTheListedInstructionsReadARegister : Prop :=
  ∀ (r : Reg) (v : Byte) (i : Instr) (s : State), r.readBy i = false →
    ∃ t, exec i s = .next t ∧
      exec i (s.setReg r v) = .next (if r.writtenBy i then t else t.setReg r v)

/-- SP names the stack byte at `0x0100 + SP`, inside page 1; only JSR, RTS, PHA, PLA and BRK change it or act on
its value (10_state.md section 1). -/
def Obligations.OnlyTheStackInstructionsUseSp : Prop :=
  (∀ sp : Byte, (stackAddr sp).toNat = 0x0100 + sp.toNat ∧ (stackAddr sp).toNat ≤ 0x01FF) ∧
  ∀ (i : Instr) (s : State) (v : Byte), i ∉ [Instr.rts, .pha, .pla, .brk] → (∀ w, i ≠ .jsr w) →
    ∃ t, exec i s = .next t ∧ t.sp = s.sp ∧ exec i (s.setReg .sp v) = .next (t.setReg .sp v)

/-- Each flag is written only by the instructions its row of the P table names, I and D by none; bit 5 reads 1 in every
state, and the P that BRK pushes has it set (10_state.md section 2; the writers follow from the instruction rules). -/
def Obligations.OnlyTheListedInstructionsWriteAFlag : Prop :=
  (∀ (f : Flag) (i : Instr) (s t : State), exec i s = .next t → f.writtenBy i = false → t.flag f = s.flag f) ∧
  (∀ s : State, s.readP.getLsbD 5 = true ∧ s.snapshot.p.getLsbD 5 = true) ∧
  (∀ s t : State, exec .brk s = .next t → (t.read (stackAddr (s.sp - 2))).getLsbD 5 = true)

/-- I, D and V change nothing an instruction computes: with one of them written first, every register, every other
flag, PC and the diagnostics come out the same, and so does every byte of memory unless the instruction is BRK, which
pushes P (10_state.md section 2; ADC and SBC ignore D by the spec's decision D21). -/
def Obligations.InterruptDecimalAndOverflowSteerNothing : Prop :=
  ∀ (f : Flag) (b : Bool) (i : Instr) (s : State), f ∈ [Flag.i, .d, .v] →
    ∃ t u, exec i s = .next t ∧ exec i (s.setFlag f b) = .next u ∧ u.pc = t.pc ∧ u.diags = t.diags ∧
      (∀ r, u.reg r = t.reg r) ∧ (∀ g, g ≠ f → u.flag g = t.flag g) ∧
      (i ≠ .brk → ∀ e, u.read e = t.read e)

/-- Memory is written only by the stores, the read-modify-writes on memory, the pushes, and under `CLEAR_ON_POP` the
pops (20_memory.md section 2, which the spec derives from the instruction rules). -/
def Obligations.OnlyTheListedInstructionsWriteMemory : Prop :=
  ∀ (i : Instr) (s t : State), exec i s = .next t → writesMemory s.cfg.clearOnPop i = false →
    ∀ e, t.read e = s.read e

/-- R126: every instruction except a taken branch, JMP, JSR and RTS leaves PC at `(IA + 1 + n) mod 65536`, a branch not
taken, BRK, NOP and UNKNOWN among them. -/
def Obligations.SequentialInstructionsAdvancePastThemselves : Prop :=
  ∀ (i : Instr) (s : State), transfers i s = false → ∃ t, exec i s = .next t ∧ AdvancesBy i.count s t

/-! ### The tick, the status machine and the host -/

/-- A step runs the decoded instruction: Running, with no host event pending, and the bytes at PC decoding to `i`, the
step is `exec i` and then the end of the tick: Breakpointed where B is set, else unchanged where the next instruction
is wholly below `PROG_END`, else Halted with the diagnostic (40_core_tick.md sections 1 and 2; the end check is the spec's
decision D15, the empty queue's tick the model's, log 2). -/
def Obligations.StepRunsTheDecodedInstruction : Prop :=
  ∀ (s : State) (i : Instr) (rest : List Byte), s.status = .running → s.pending = [] →
    decode [s.read s.pc, s.read (s.pc + 1), s.read (s.pc + 2)] = .ok (i, rest) →
    ∃ t, exec i s = .next t ∧
      (if t.flag .b then step s = .next { t with status := .breakpointed }
      else if ∀ k, k ≤ operandCount (t.read t.pc) → (t.pc.toNat + k) % 65536 < t.cfg.progEnd then step s = .next t
      else step s = .next { t with status := .halted, diags := t.diags ++ [.endOfProgram t.pc] })

/-- A tick outside Running changes nothing (40_core_tick.md section 2; for Idle the spec's decision D16). -/
def Obligations.TicksOutsideRunningDoNothing : Prop :=
  ∀ s : State, s.status ≠ .running → hostEvent .tick s = .next s

/-- The end check alone makes the transition to Halted, with the diagnostic `EndOfProgram(PC)` and no other
change, and no event but reset changes a machine that is Halted (60_exceptions.md section 2). The check is the spec's
decision D15; that start and resume do nothing in Halted is its decision D16, that stop does nothing its decision D19;
that a load does nothing in Halted is the model's own deduction (log 5). -/
def Obligations.HaltingIsTerminal : Prop :=
  (∀ s : State,
    if ∀ k, k ≤ operandCount (s.read s.pc) → (s.pc.toNat + k) % 65536 < s.cfg.progEnd then s.checkEnd = s
    else s.checkEnd = { s with status := .halted, diags := s.diags ++ [.endOfProgram s.pc] }) ∧
  (∀ (e : HostEvent) (s t : State), hostEvent e s = .next t → s.status ≠ .halted → t.status = .halted →
    t.diags.getLast? = some (.endOfProgram t.pc)) ∧
  (∀ (e : HostEvent) (s : State), s.status = .halted → e ≠ .reset → hostEvent e s = .next s)

/-- R304: a tick ends Breakpointed exactly when the instruction it ran is BRK; the BRK has completed, `PC = IA + 1`, no
state is discarded and no end check has run: the state is BRK's own with the status changed. B is clear before, as it is
in every Running state the machine reaches (the invariant). -/
def Obligations.BrkAloneBreakpoints : Prop :=
  ∀ s : State, s.status = .running → s.flag .b = false →
    ∃ t, hostEvent .tick s = .next t ∧ (t.status = .breakpointed ↔ s.instrAt s.pc = .brk) ∧
      (s.instrAt s.pc = .brk → AdvancesBy 0 s t ∧
        ∃ u, exec .brk s = .next u ∧ t = { u with status := .breakpointed })

/-- The state diagram of 60_exceptions.md section 2, row by row (it rests on the decisions D15, D16 and D34): start
from Idle, tick from Running (BRK; next instruction below `PROG_END`; not below), resume from Breakpointed, reset from
any status, and every other event unchanged in status. The end check after start, resume or an instruction is the test
on the next instruction's bytes. B is clear in a Running state (the invariant). -/
def Obligations.StatusFollowsTheStateDiagram : Prop :=
  ∀ (s t : State) (e : HostEvent), (s.status = .running → s.flag .b = false) → hostEvent e s = .next t →
    t.status =
      (match e, s.status with
      | .reset, _ => .idle
      | .start, .idle => if t.belowEnd then .running else .halted
      | .resume, .breakpointed => if t.belowEnd then .running else .halted
      | .tick, .running =>
        if s.instrAt s.pc = .brk then .breakpointed else if t.belowEnd then .running else .halted
      | _, st => st)

/-- Start and resume write what their rules name and nothing else: start the status, resume the status and B, each with
the diagnostic if the end check fires; in any other status they change nothing (60_exceptions.md section 2; the
spec's decisions D16 and D34). -/
def Obligations.StartAndResumeWriteOnlyTheStatusAndB : Prop :=
  ∀ s : State,
    (s.status ≠ .idle → hostEvent .start s = .next s) ∧
    (s.status ≠ .breakpointed → hostEvent .resume s = .next s) ∧
    (s.status = .idle → ∃ t, hostEvent .start s = .next t ∧ t.p = s.p ∧ t.pc = s.pc ∧ t.mem = s.mem ∧
      (∀ r, t.reg r = s.reg r) ∧
      t.diags = s.diags ++ (if t.status = .halted then [.endOfProgram s.pc] else [])) ∧
    (s.status = .breakpointed → ∃ t, hostEvent .resume s = .next t ∧ t.flag .b = false ∧
      (∀ f, f ≠ .b → t.flag f = s.flag f) ∧ t.pc = s.pc ∧ t.mem = s.mem ∧ (∀ r, t.reg r = s.reg r) ∧
      t.diags = s.diags ++ (if t.status = .halted then [.endOfProgram s.pc] else []))

/-- Within one tick at most one condition applies to the executed instruction, fixed by the opcode: UNKNOWN emits one
`UnknownOpcode` diagnostic with `IA`, BRK breakpoints, and no other instruction emits or sets B. Which byte that
diagnostic names is not said here: UnknownIsANoOpWithADiagnostic (O30) says it (60_exceptions.md section 2; the spec's
decision D32). -/
def Obligations.TheOpcodeFixesTheCondition : Prop :=
  ∀ (i : Instr) (s : State), ∃ t, exec i s = .next t ∧
    (match conditionOf i with
    | some .unknownOpcode => (∃ op, t.diags = s.diags ++ [.unknownOpcode op s.pc]) ∧ t.flag .b = s.flag .b
    | some .breakpoint => t.diags = s.diags ∧ t.flag .b = true
    | _ => t.diags = s.diags ∧ t.flag .b = s.flag .b)

/-- No event changes a launch parameter, and every event is delivered in order, one a step (10_state.md section 5 and
70_reset_and_hazards.md section 4; that a step takes the oldest pending event, and a tick where none is pending, is the
model's choice, log 2). -/
def Obligations.StepsDeliverEventsAndKeepTheParameters : Prop :=
  ∀ s t : State, step s = .next t → t.cfg = s.cfg ∧ t.pending = s.pending.tail ∧
    (match s.pending with
    | [] => hostEvent .tick s = .next t
    | e :: es => hostEvent e { s with pending := es } = .next t)

/-- Every step of a machine whose launch is one the spec defines answers a next state: no fault and no refusal
(40_core_tick.md section 2: no tick is abandoned halfway; 70_reset_and_hazards.md section 2). -/
def Obligations.EveryStepAnswers : Prop :=
  ∀ s : State, s.cfg.progBase.toNat + s.cfg.image.length ≤ 0x10000 → s.cfg.progEnd ≤ 0x10000 →
    ∃ t, step s = .next t

/-- Reset gives every piece of state the value the reset table states, from any state: registers 0, `P = 0x20`,
`PC = PROG_BASE`, Idle, memory `INIT_MEM`; and the model's `State.reset` is that with the default parameters
(10_state.md section 4; the values are the spec's decisions D17 and D18; that no diagnostic is kept is the model's,
log 3). -/
def Obligations.ResetLeavesTheResetState : Prop :=
  (∀ s : State, ∃ t, hostEvent .reset s = .next t ∧ t.a = 0x00 ∧ t.x = 0x00 ∧ t.y = 0x00 ∧ t.sp = 0x00 ∧
    t.readP = 0x20 ∧ t.pc = s.cfg.progBase ∧ t.status = .idle ∧ t.mem = s.cfg.initMem ∧ t.diags = []) ∧
  State.reset.pc = 0x0600 ∧ State.reset.readP = 0x20 ∧ State.reset.status = .idle ∧
  (∀ r, State.reset.reg r = 0x00) ∧ (∀ e, State.reset.read e = 0x00)

/-- Load writes IMAGE at `PROG_BASE` upward while Idle and changes nothing else; a launch and a load whose image does not
fit or whose `PROG_END` is above `0x10000` are refused (70_reset_and_hazards.md section 2 and 60_exceptions.md section
6). That a launch with too long an image is refused is the spec's decision D18; the refusal for `PROG_END`, and that the
load event refuses too, are the model's deduction (log 6). -/
def Obligations.LoadPlacesTheImage : Prop :=
  (∀ s : State, s.status = .idle →
    if s.cfg.progBase.toNat + s.cfg.image.length ≤ 0x10000 ∧ s.cfg.progEnd ≤ 0x10000 then
      ∃ t, hostEvent .load s = .next t ∧ { t with mem := s.mem } = s ∧
        ∀ a : Nat, t.mem.get a =
          if s.cfg.progBase.toNat ≤ a ∧ a < s.cfg.progBase.toNat + s.cfg.image.length then
            s.cfg.image.getD (a - s.cfg.progBase.toNat) 0x00
          else s.mem.get a
    else hostEvent .load s = .refused .launchOutOfRange) ∧
  (∀ c : Config,
    if c.progBase.toNat + c.image.length ≤ 0x10000 ∧ c.progEnd ≤ 0x10000 then
      launch c = .next (State.ofConfig c)
    else launch c = .refused .launchOutOfRange)

/-! ### The invariant -/

/-- The invariant holds at reset. -/
def Obligations.InvariantHoldsAtReset : Prop := State.reset.Inv

/-- Every step keeps the invariant: memory stays canonical, bit 5 of P stays 1, I and D stay 0, B is set exactly while
Breakpointed, and while Running the instruction at PC lies wholly below `PROG_END`. -/
def Obligations.EveryStepKeepsTheInvariant : Prop :=
  ∀ s t : State, s.Inv → step s = .next t → t.Inv
end

