-- ==== Sys2Proof/Laws/State.lean ====
section
/-! SUPPORT. One lemma per field per update, so that no proof unfolds a record update. -/

namespace Sys2Proof.Machine

/-! ### `State.setPC` -/

@[simp] theorem State.setPC_a (s : State) (v : Addr) : (s.setPC v).a = s.a := rfl
@[simp] theorem State.setPC_x (s : State) (v : Addr) : (s.setPC v).x = s.x := rfl
@[simp] theorem State.setPC_y (s : State) (v : Addr) : (s.setPC v).y = s.y := rfl
@[simp] theorem State.setPC_sp (s : State) (v : Addr) : (s.setPC v).sp = s.sp := rfl
@[simp] theorem State.setPC_pc (s : State) (v : Addr) : (s.setPC v).pc = v := rfl
@[simp] theorem State.setPC_p (s : State) (v : Addr) : (s.setPC v).p = s.p := rfl
@[simp] theorem State.setPC_status (s : State) (v : Addr) : (s.setPC v).status = s.status := rfl
@[simp] theorem State.setPC_mem (s : State) (v : Addr) : (s.setPC v).mem = s.mem := rfl
@[simp] theorem State.setPC_cfg (s : State) (v : Addr) : (s.setPC v).cfg = s.cfg := rfl
@[simp] theorem State.setPC_pending (s : State) (v : Addr) : (s.setPC v).pending = s.pending := rfl
@[simp] theorem State.setPC_diags (s : State) (v : Addr) : (s.setPC v).diags = s.diags := rfl

/-! ### `State.setFlag` -/

@[simp] theorem State.setFlag_a (s : State) (f : Flag) (b : Bool) : (s.setFlag f b).a = s.a := rfl
@[simp] theorem State.setFlag_x (s : State) (f : Flag) (b : Bool) : (s.setFlag f b).x = s.x := rfl
@[simp] theorem State.setFlag_y (s : State) (f : Flag) (b : Bool) : (s.setFlag f b).y = s.y := rfl
@[simp] theorem State.setFlag_sp (s : State) (f : Flag) (b : Bool) : (s.setFlag f b).sp = s.sp := rfl
@[simp] theorem State.setFlag_pc (s : State) (f : Flag) (b : Bool) : (s.setFlag f b).pc = s.pc := rfl
@[simp] theorem State.setFlag_p (s : State) (f : Flag) (b : Bool) : (s.setFlag f b).p = putBit s.p f.bit b ||| 0x20 := rfl
@[simp] theorem State.setFlag_status (s : State) (f : Flag) (b : Bool) : (s.setFlag f b).status = s.status := rfl
@[simp] theorem State.setFlag_mem (s : State) (f : Flag) (b : Bool) : (s.setFlag f b).mem = s.mem := rfl
@[simp] theorem State.setFlag_cfg (s : State) (f : Flag) (b : Bool) : (s.setFlag f b).cfg = s.cfg := rfl
@[simp] theorem State.setFlag_pending (s : State) (f : Flag) (b : Bool) : (s.setFlag f b).pending = s.pending := rfl
@[simp] theorem State.setFlag_diags (s : State) (f : Flag) (b : Bool) : (s.setFlag f b).diags = s.diags := rfl

/-! ### `State.setStatus` -/

@[simp] theorem State.setStatus_a (s : State) (st : Status) : (s.setStatus st).a = s.a := rfl
@[simp] theorem State.setStatus_x (s : State) (st : Status) : (s.setStatus st).x = s.x := rfl
@[simp] theorem State.setStatus_y (s : State) (st : Status) : (s.setStatus st).y = s.y := rfl
@[simp] theorem State.setStatus_sp (s : State) (st : Status) : (s.setStatus st).sp = s.sp := rfl
@[simp] theorem State.setStatus_pc (s : State) (st : Status) : (s.setStatus st).pc = s.pc := rfl
@[simp] theorem State.setStatus_p (s : State) (st : Status) : (s.setStatus st).p = s.p := rfl
@[simp] theorem State.setStatus_status (s : State) (st : Status) : (s.setStatus st).status = st := rfl
@[simp] theorem State.setStatus_mem (s : State) (st : Status) : (s.setStatus st).mem = s.mem := rfl
@[simp] theorem State.setStatus_cfg (s : State) (st : Status) : (s.setStatus st).cfg = s.cfg := rfl
@[simp] theorem State.setStatus_pending (s : State) (st : Status) : (s.setStatus st).pending = s.pending := rfl
@[simp] theorem State.setStatus_diags (s : State) (st : Status) : (s.setStatus st).diags = s.diags := rfl

/-! ### `State.write` -/

@[simp] theorem State.write_a (s : State) (q : Addr) (v : Byte) : (s.write q v).a = s.a := rfl
@[simp] theorem State.write_x (s : State) (q : Addr) (v : Byte) : (s.write q v).x = s.x := rfl
@[simp] theorem State.write_y (s : State) (q : Addr) (v : Byte) : (s.write q v).y = s.y := rfl
@[simp] theorem State.write_sp (s : State) (q : Addr) (v : Byte) : (s.write q v).sp = s.sp := rfl
@[simp] theorem State.write_pc (s : State) (q : Addr) (v : Byte) : (s.write q v).pc = s.pc := rfl
@[simp] theorem State.write_p (s : State) (q : Addr) (v : Byte) : (s.write q v).p = s.p := rfl
@[simp] theorem State.write_status (s : State) (q : Addr) (v : Byte) : (s.write q v).status = s.status := rfl
@[simp] theorem State.write_mem (s : State) (q : Addr) (v : Byte) : (s.write q v).mem = s.mem.set q.toNat v := rfl
@[simp] theorem State.write_cfg (s : State) (q : Addr) (v : Byte) : (s.write q v).cfg = s.cfg := rfl
@[simp] theorem State.write_pending (s : State) (q : Addr) (v : Byte) : (s.write q v).pending = s.pending := rfl
@[simp] theorem State.write_diags (s : State) (q : Addr) (v : Byte) : (s.write q v).diags = s.diags := rfl

/-! ### `State.emit` -/

@[simp] theorem State.emit_a (s : State) (d : Diag) : (s.emit d).a = s.a := rfl
@[simp] theorem State.emit_x (s : State) (d : Diag) : (s.emit d).x = s.x := rfl
@[simp] theorem State.emit_y (s : State) (d : Diag) : (s.emit d).y = s.y := rfl
@[simp] theorem State.emit_sp (s : State) (d : Diag) : (s.emit d).sp = s.sp := rfl
@[simp] theorem State.emit_pc (s : State) (d : Diag) : (s.emit d).pc = s.pc := rfl
@[simp] theorem State.emit_p (s : State) (d : Diag) : (s.emit d).p = s.p := rfl
@[simp] theorem State.emit_status (s : State) (d : Diag) : (s.emit d).status = s.status := rfl
@[simp] theorem State.emit_mem (s : State) (d : Diag) : (s.emit d).mem = s.mem := rfl
@[simp] theorem State.emit_cfg (s : State) (d : Diag) : (s.emit d).cfg = s.cfg := rfl
@[simp] theorem State.emit_pending (s : State) (d : Diag) : (s.emit d).pending = s.pending := rfl
@[simp] theorem State.emit_diags (s : State) (d : Diag) : (s.emit d).diags = s.diags ++ [d] := rfl

/-! ### `State.setReg` -/

@[simp] theorem State.setReg_a_a (s : State) (v : Byte) : (s.setReg .a v).a = v := rfl
@[simp] theorem State.setReg_a_x (s : State) (v : Byte) : (s.setReg .a v).x = s.x := rfl
@[simp] theorem State.setReg_a_y (s : State) (v : Byte) : (s.setReg .a v).y = s.y := rfl
@[simp] theorem State.setReg_a_sp (s : State) (v : Byte) : (s.setReg .a v).sp = s.sp := rfl
@[simp] theorem State.setReg_x_a (s : State) (v : Byte) : (s.setReg .x v).a = s.a := rfl
@[simp] theorem State.setReg_x_x (s : State) (v : Byte) : (s.setReg .x v).x = v := rfl
@[simp] theorem State.setReg_x_y (s : State) (v : Byte) : (s.setReg .x v).y = s.y := rfl
@[simp] theorem State.setReg_x_sp (s : State) (v : Byte) : (s.setReg .x v).sp = s.sp := rfl
@[simp] theorem State.setReg_y_a (s : State) (v : Byte) : (s.setReg .y v).a = s.a := rfl
@[simp] theorem State.setReg_y_x (s : State) (v : Byte) : (s.setReg .y v).x = s.x := rfl
@[simp] theorem State.setReg_y_y (s : State) (v : Byte) : (s.setReg .y v).y = v := rfl
@[simp] theorem State.setReg_y_sp (s : State) (v : Byte) : (s.setReg .y v).sp = s.sp := rfl
@[simp] theorem State.setReg_sp_a (s : State) (v : Byte) : (s.setReg .sp v).a = s.a := rfl
@[simp] theorem State.setReg_sp_x (s : State) (v : Byte) : (s.setReg .sp v).x = s.x := rfl
@[simp] theorem State.setReg_sp_y (s : State) (v : Byte) : (s.setReg .sp v).y = s.y := rfl
@[simp] theorem State.setReg_sp_sp (s : State) (v : Byte) : (s.setReg .sp v).sp = v := rfl
@[simp] theorem State.setReg_pc (s : State) (r : Reg) (v : Byte) : (s.setReg r v).pc = s.pc := by
  cases r <;> rfl
@[simp] theorem State.setReg_p (s : State) (r : Reg) (v : Byte) : (s.setReg r v).p = s.p := by
  cases r <;> rfl
@[simp] theorem State.setReg_status (s : State) (r : Reg) (v : Byte) : (s.setReg r v).status = s.status := by
  cases r <;> rfl
@[simp] theorem State.setReg_mem (s : State) (r : Reg) (v : Byte) : (s.setReg r v).mem = s.mem := by
  cases r <;> rfl
@[simp] theorem State.setReg_cfg (s : State) (r : Reg) (v : Byte) : (s.setReg r v).cfg = s.cfg := by
  cases r <;> rfl
@[simp] theorem State.setReg_pending (s : State) (r : Reg) (v : Byte) : (s.setReg r v).pending = s.pending := by
  cases r <;> rfl
@[simp] theorem State.setReg_diags (s : State) (r : Reg) (v : Byte) : (s.setReg r v).diags = s.diags := by
  cases r <;> rfl

/-! ### What the accessors see of an update -/

theorem State.reg_setReg (s : State) (r q : Reg) (v : Byte) :
    (s.setReg r v).reg q = if q = r then v else s.reg q := by
  cases r <;> cases q <;> rfl

@[simp] theorem State.reg_setPC (s : State) (v : Addr) (r : Reg) : (s.setPC v).reg r = s.reg r := by
  cases r <;> rfl
@[simp] theorem State.reg_setFlag (s : State) (f : Flag) (b : Bool) (r : Reg) : (s.setFlag f b).reg r = s.reg r := by
  cases r <;> rfl
@[simp] theorem State.reg_setStatus (s : State) (st : Status) (r : Reg) : (s.setStatus st).reg r = s.reg r := by
  cases r <;> rfl
@[simp] theorem State.reg_write (s : State) (q : Addr) (v : Byte) (r : Reg) : (s.write q v).reg r = s.reg r := by
  cases r <;> rfl
@[simp] theorem State.reg_emit (s : State) (d : Diag) (r : Reg) : (s.emit d).reg r = s.reg r := by
  cases r <;> rfl

@[simp] theorem State.readP_setPC (s : State) (v : Addr) : (s.setPC v).readP = s.readP := by
  simp [State.readP]
@[simp] theorem State.flag_setPC (s : State) (v : Addr) (g : Flag) : (s.setPC v).flag g = s.flag g := by
  simp [State.flag]
@[simp] theorem State.read_setPC (s : State) (v : Addr) (e : Addr) : (s.setPC v).read e = s.read e := by
  simp [State.read]
@[simp] theorem State.read_setFlag (s : State) (f : Flag) (b : Bool) (e : Addr) : (s.setFlag f b).read e = s.read e := by
  simp [State.read]
@[simp] theorem State.readP_setStatus (s : State) (st : Status) : (s.setStatus st).readP = s.readP := by
  simp [State.readP]
@[simp] theorem State.flag_setStatus (s : State) (st : Status) (g : Flag) : (s.setStatus st).flag g = s.flag g := by
  simp [State.flag]
@[simp] theorem State.read_setStatus (s : State) (st : Status) (e : Addr) : (s.setStatus st).read e = s.read e := by
  simp [State.read]
@[simp] theorem State.readP_write (s : State) (q : Addr) (v : Byte) : (s.write q v).readP = s.readP := by
  simp [State.readP]
@[simp] theorem State.flag_write (s : State) (q : Addr) (v : Byte) (g : Flag) : (s.write q v).flag g = s.flag g := by
  simp [State.flag]
@[simp] theorem State.readP_emit (s : State) (d : Diag) : (s.emit d).readP = s.readP := by
  simp [State.readP]
@[simp] theorem State.flag_emit (s : State) (d : Diag) (g : Flag) : (s.emit d).flag g = s.flag g := by
  simp [State.flag]
@[simp] theorem State.read_emit (s : State) (d : Diag) (e : Addr) : (s.emit d).read e = s.read e := by
  simp [State.read]
@[simp] theorem State.readP_setReg (s : State) (r : Reg) (v : Byte) : (s.setReg r v).readP = s.readP := by
  simp [State.readP]
@[simp] theorem State.flag_setReg (s : State) (r : Reg) (v : Byte) (g : Flag) : (s.setReg r v).flag g = s.flag g := by
  simp [State.flag]
@[simp] theorem State.read_setReg (s : State) (r : Reg) (v : Byte) (e : Addr) : (s.setReg r v).read e = s.read e := by
  simp [State.read]

end Sys2Proof.Machine
end

