-- ==== Sys2Proof/Laws/Flags.lean ====
section
/-! SUPPORT. The laws of the flag bits and of the writes that set Z and N. -/

namespace Sys2Proof.Machine

/-- A flag after a flag write: the written one has the bit, every other one is as before. -/
theorem State.flag_setFlag (s : State) (f g : Flag) (b : Bool) :
    (s.setFlag f b).flag g = if g = f then b else s.flag g := by
  cases f <;> cases g <;> cases b <;>
    simp [State.flag, State.readP, putBit, Flag.bit]

@[simp] theorem State.flag_setFlag_self (s : State) (f : Flag) (b : Bool) : (s.setFlag f b).flag f = b := by
  simp [State.flag_setFlag]

/-- Bit 5 of P reads 1 in every state (10_state.md R27). -/
@[simp] theorem State.readP_bit5 (s : State) : s.readP.getLsbD 5 = true := by
  simp [State.readP]

/-- A flag write leaves bit 5 of the stored P set. -/
@[simp] theorem State.bit5_setFlag (s : State) (f : Flag) (b : Bool) : (s.setFlag f b).p.getLsbD 5 = true := by
  simp

theorem State.flag_setZN (s : State) (r : Byte) (g : Flag) :
    (s.setZN r).flag g = if g = .n then r.msb else if g = .z then r == 0 else s.flag g := by
  simp [State.setZN, State.flag_setFlag]

@[simp] theorem State.bit5_setZN (s : State) (r : Byte) : (s.setZN r).p.getLsbD 5 = true := by
  simp [State.setZN]

theorem msb_iff (r : Byte) : r.msb = true ↔ 128 ≤ r.toNat := by
  rw [BitVec.msb_eq_decide]; simp

theorem beq_zero_iff (r : Byte) : (r == 0) = true ↔ r.toNat = 0 := by
  simp [← BitVec.toNat_inj]

/-- `SetZN` makes Z and N report the byte. -/
theorem State.setZN_reports (s : State) (r : Byte) : ReportsZN r (s.setZN r) := by
  constructor
  · rw [State.flag_setZN]; simpa using beq_zero_iff r
  · rw [State.flag_setZN]; simpa using msb_iff r

/-! ### The fields `State.setZN` leaves -/

@[simp] theorem State.setZN_a (s : State) (r : Byte) : (s.setZN r).a = s.a := rfl
@[simp] theorem State.setZN_x (s : State) (r : Byte) : (s.setZN r).x = s.x := rfl
@[simp] theorem State.setZN_y (s : State) (r : Byte) : (s.setZN r).y = s.y := rfl
@[simp] theorem State.setZN_sp (s : State) (r : Byte) : (s.setZN r).sp = s.sp := rfl
@[simp] theorem State.setZN_pc (s : State) (r : Byte) : (s.setZN r).pc = s.pc := rfl
@[simp] theorem State.setZN_status (s : State) (r : Byte) : (s.setZN r).status = s.status := rfl
@[simp] theorem State.setZN_mem (s : State) (r : Byte) : (s.setZN r).mem = s.mem := rfl
@[simp] theorem State.setZN_cfg (s : State) (r : Byte) : (s.setZN r).cfg = s.cfg := rfl
@[simp] theorem State.setZN_pending (s : State) (r : Byte) : (s.setZN r).pending = s.pending := rfl
@[simp] theorem State.setZN_diags (s : State) (r : Byte) : (s.setZN r).diags = s.diags := rfl
@[simp] theorem State.reg_setZN (s : State) (r : Byte) (q : Reg) : (s.setZN r).reg q = s.reg q := by
  simp [State.setZN]
@[simp] theorem State.read_setZN (s : State) (r : Byte) (e : Addr) : (s.setZN r).read e = s.read e := rfl

end Sys2Proof.Machine
end

