-- ==== Sys2Proof/Laws/Memory.lean ====
section
/-! SUPPORT. The laws of the byte array: read over write for every list, and the canonical form, which every memory
operation keeps and which makes equal memories equal data. -/

namespace Sys2Proof

theorem Memory.get_erase (m : Memory) (a b : Nat) :
    (m.erase a).get b = if b = a then 0x00 else m.get b := by
  induction m with
  | nil => simp [Memory.erase, Memory.get]
  | cons c rest ih =>
    obtain ⟨k, w⟩ := c
    simp only [Memory.erase, List.filter_cons] at ih ⊢
    by_cases hk : k = a
    · subst hk
      by_cases hb : b = k <;> simp_all [Memory.get]
    · by_cases hb : b = k
      · subst hb; simp_all [Memory.get]
      · simp_all [Memory.get]

theorem Memory.get_insert (m : Memory) (a b : Nat) (v : Byte) (h : ∀ c ∈ m, c.1 ≠ a) :
    (m.insert a v).get b = if b = a then v else m.get b := by
  induction m with
  | nil => by_cases hb : b = a <;> simp [Memory.insert, Memory.get, hb]
  | cons c rest ih =>
    obtain ⟨k, w⟩ := c
    have hk : k ≠ a := h (k, w) (by simp)
    have ih := ih (fun c hc => h c (by simp [hc]))
    by_cases hlt : a < k
    · by_cases hb : b = a <;> simp [Memory.insert, Memory.get, hlt, hb]
    · by_cases hb : b = k
      · subst hb; simp [Memory.insert, Memory.get, hlt, hk]
      · simp [Memory.insert, Memory.get, hlt, hb, ih]

theorem Memory.erase_no_key (m : Memory) (a : Nat) : ∀ c ∈ m.erase a, c.1 ≠ a := by
  intro c hc
  simpa [Memory.erase] using (List.mem_filter.mp hc).2

/-- A read after a write: the byte written at its address, the old byte everywhere else, for EVERY list. -/
theorem Memory.get_set (m : Memory) (a b : Nat) (v : Byte) :
    (m.set a v).get b = if b = a then v else m.get b := by
  unfold Memory.set
  split
  · next h => subst h; exact m.get_erase a b
  · rw [Memory.get_insert _ _ _ _ (m.erase_no_key a), m.get_erase]
    split <;> simp_all

theorem Memory.mem_insert (m : Memory) (a : Nat) (v : Byte) (c : Host.Cell) :
    c ∈ m.insert a v ↔ c = (a, v) ∨ c ∈ m := by
  induction m with
  | nil => simp [Memory.insert]
  | cons d rest ih =>
    obtain ⟨k, w⟩ := d
    by_cases hlt : a < k
    · simp [Memory.insert, hlt]
    · simp [Memory.insert, hlt, ih, or_left_comm]

theorem Memory.wf_erase (m : Memory) (a : Nat) (h : m.wf) : (m.erase a).wf :=
  ⟨h.1.sublist List.filter_sublist, fun c hc => h.2 c (List.mem_of_mem_filter hc)⟩

theorem Memory.wf_insert (m : Memory) (a : Nat) (v : Byte) (h : m.wf) (ha : a < 65536) (hv : v ≠ 0x00)
    (hk : ∀ c ∈ m, c.1 ≠ a) : (m.insert a v).wf := by
  refine ⟨?_, fun c hc => ?_⟩
  · obtain ⟨hs, -⟩ := h
    induction m with
    | nil => simp [Memory.insert]
    | cons d rest ih =>
      obtain ⟨k, w⟩ := d
      have hka : k ≠ a := hk (k, w) (by simp)
      obtain ⟨hhead, htail⟩ := List.pairwise_cons.mp hs
      by_cases hlt : a < k
      · simp only [Memory.insert, hlt, if_true]
        refine List.pairwise_cons.mpr ⟨fun c hc => ?_, hs⟩
        rcases List.mem_cons.mp hc with rfl | hc
        · exact hlt
        · exact hlt.trans (hhead c hc)
      · simp only [Memory.insert, hlt, if_false]
        refine List.pairwise_cons.mpr ⟨fun c hc => ?_, ih (fun c hc => hk c (by simp [hc])) htail⟩
        rcases (Memory.mem_insert rest a v c).mp hc with rfl | hc
        · exact lt_of_le_of_ne (not_lt.mp hlt) hka
        · exact hhead c hc
  · rcases (Memory.mem_insert m a v c).mp hc with rfl | hc
    · exact ⟨ha, hv⟩
    · exact h.2 c hc

/-- A write keeps the canonical form. -/
theorem Memory.wf_set (m : Memory) (a : Nat) (v : Byte) (h : m.wf) (ha : a < 65536) : (m.set a v).wf := by
  unfold Memory.set
  split
  · exact m.wf_erase a h
  · next hv => exact Memory.wf_insert _ _ _ (m.wf_erase a h) ha hv (m.erase_no_key a)

/-- Bytes placed where they fit: each address of theirs reads its byte, every other address as before. -/
theorem Memory.get_place (m : Memory) (a : Addr) (bytes : List Byte) (b : Nat)
    (h : a.toNat + bytes.length ≤ 0x10000) :
    (m.place a bytes).get b =
      if a.toNat ≤ b ∧ b < a.toNat + bytes.length then bytes.getD (b - a.toNat) 0x00 else m.get b := by
  induction bytes generalizing m a with
  | nil =>
    have h0 : ¬ (a.toNat ≤ b ∧ b < a.toNat + ([] : List Byte).length) := by simp
    rw [if_neg h0]
    rfl
  | cons v rest ih =>
    simp only [List.length_cons] at h ⊢
    rw [Memory.place]
    cases rest with
    | nil =>
      rw [Memory.place, Memory.get_set]
      by_cases hb : b = a.toNat
      · subst hb
        simp
      · rw [if_neg hb, if_neg (by simp only [List.length_nil]; omega)]
    | cons w more =>
      simp only [List.length_cons] at h ⊢
      have ha : (a + 1).toNat = a.toNat + 1 := by
        rw [BitVec.toNat_add]
        simp
        omega
      rw [ih (m.set a.toNat v) (a + 1) (by rw [ha]; simp only [List.length_cons]; omega), ha, Memory.get_set]
      simp only [List.length_cons]
      by_cases hb : b = a.toNat
      · subst hb
        rw [if_neg (by omega), if_pos rfl, if_pos (by omega)]
        simp
      · by_cases hr : a.toNat + 1 ≤ b ∧ b < a.toNat + 1 + (more.length + 1)
        · have e : b - a.toNat = (b - (a.toNat + 1)) + 1 := by omega
          rw [if_pos hr, if_pos (by omega), e]
          simp
        · rw [if_neg hr, if_neg hb, if_neg (by omega)]

/-- Placing bytes keeps the canonical form. -/
theorem Memory.wf_place (m : Memory) (a : Addr) (bytes : List Byte) (h : m.wf) : (m.place a bytes).wf := by
  induction bytes generalizing m a with
  | nil => exact h
  | cons b bs ih => exact ih _ _ (m.wf_set _ _ h a.isLt)

theorem Memory.get_of_lt_keys (m : Memory) (a : Nat) (h : ∀ c ∈ m, a < c.1) : m.get a = 0x00 := by
  induction m with
  | nil => rfl
  | cons c rest ih =>
    obtain ⟨k, w⟩ := c
    have hk : a < k := h (k, w) (by simp)
    simp only [Memory.get, if_neg (Nat.ne_of_lt hk)]
    exact ih (fun c hc => h c (by simp [hc]))

/-- Two canonical memories that read alike are the same list. -/
theorem Memory.eq_of_get (m n : Memory) (hm : m.wf) (hn : n.wf) (h : ∀ a, m.get a = n.get a) : m = n := by
  induction m generalizing n with
  | nil =>
    cases n with
    | nil => rfl
    | cons c rest =>
      obtain ⟨k, w⟩ := c
      have := h k
      simp only [Memory.get, if_true] at this
      exact absurd this.symm (hn.2 (k, w) (by simp)).2
  | cons c rest ih =>
    obtain ⟨k, w⟩ := c
    obtain ⟨hhead, htail⟩ := List.pairwise_cons.mp hm.1
    have hw := (hm.2 (k, w) (by simp)).2
    cases n with
    | nil =>
      have := h k
      simp only [Memory.get, if_true] at this
      exact absurd this hw
    | cons d rest' =>
      obtain ⟨k', w'⟩ := d
      obtain ⟨hhead', htail'⟩ := List.pairwise_cons.mp hn.1
      have hw' := (hn.2 (k', w') (by simp)).2
      have hkk : k = k' := by
        rcases lt_trichotomy k k' with hlt | heq | hgt
        · have e := h k
          rw [Memory.get_of_lt_keys ((k', w') :: rest') k
            (by intro c hc; rcases List.mem_cons.mp hc with rfl | hc
                · exact hlt
                · exact hlt.trans (hhead' c hc))] at e
          simp only [Memory.get, if_true] at e
          exact absurd e hw
        · exact heq
        · have e := h k'
          rw [Memory.get_of_lt_keys ((k, w) :: rest) k'
            (by intro c hc; rcases List.mem_cons.mp hc with rfl | hc
                · exact hgt
                · exact hgt.trans (hhead c hc))] at e
          simp only [Memory.get, if_true] at e
          exact absurd e.symm hw'
      subst hkk
      have hww : w = w' := by have e := h k; simpa [Memory.get] using e
      subst hww
      congr 1
      refine ih rest' ⟨htail, fun c hc => hm.2 c (by simp [hc])⟩ ⟨htail', fun c hc => hn.2 c (by simp [hc])⟩ ?_
      intro a
      by_cases ha : a = k
      · subst ha
        rw [Memory.get_of_lt_keys rest a hhead, Memory.get_of_lt_keys rest' a hhead']
      · have e := h a
        simpa [Memory.get, ha] using e

theorem Memory.erase_insert (m : Memory) (a : Nat) (v : Byte) (h : ∀ c ∈ m, c.1 ≠ a) :
    (m.insert a v).erase a = m := by
  induction m with
  | nil => simp [Memory.insert, Memory.erase]
  | cons c rest ih =>
    obtain ⟨k, w⟩ := c
    have hk : k ≠ a := h (k, w) (by simp)
    have hr : ∀ c ∈ rest, c.1 ≠ a := fun c hc => h c (by simp [hc])
    by_cases hlt : a < k
    · have hf : rest.filter (fun c => c.1 != a) = rest :=
        List.filter_eq_self.mpr (fun c hc => by simpa using hr c hc)
      simp [Memory.insert, hlt, Memory.erase, hk, hf]
    · have := ih hr
      simp only [Memory.erase] at this
      simp [Memory.insert, hlt, Memory.erase, hk, this]

theorem Memory.erase_erase (m : Memory) (a : Nat) : (m.erase a).erase a = m.erase a := by
  simp [Memory.erase, List.filter_filter]

/-- Writing the same byte twice is writing it once. -/
theorem Memory.set_set (m : Memory) (a : Nat) (v : Byte) : (m.set a v).set a v = m.set a v := by
  unfold Memory.set
  split
  · exact m.erase_erase a
  · rw [Memory.erase_insert _ _ _ (m.erase_no_key a)]

namespace Machine

/-- `MemRead` after `MemWrite`. -/
theorem State.read_write (s : State) (q e : Addr) (v : Byte) :
    (s.write q v).read e = if e = q then v else s.read e := by
  simp [State.read, Memory.get_set, BitVec.toNat_inj]

@[simp] theorem State.read_write_self (s : State) (q : Addr) (v : Byte) : (s.write q v).read q = v := by
  simp [State.read_write]

theorem State.read_write_ne (s : State) (q e : Addr) (v : Byte) (h : e ≠ q) : (s.write q v).read e = s.read e := by
  simp [State.read_write, h]

/-- A write through the block's own port keeps the canonical form. -/
theorem State.wf_write (s : State) (q : Addr) (v : Byte) (h : s.mem.wf) : (s.write q v).mem.wf :=
  Memory.wf_set _ _ _ h q.isLt

theorem State.reset_mem_wf : State.reset.mem.wf := by decide

/-- A write through the outside port keeps the canonical form. -/
theorem portWrite_wf (m n : Memory) (a : Int) (v : Byte) (h : m.wf) (hw : portWrite m a v = .ok n) : n.wf := by
  unfold portWrite at hw
  split at hw
  · next ha =>
    cases hw
    exact Memory.wf_set _ _ _ h (by omega)
  · cases hw

/-- The loader keeps the canonical form. -/
theorem portLoad_wf (m n : Memory) (a : Int) (bytes : List Byte) (h : m.wf) (hl : portLoad m a bytes = .ok n) :
    n.wf := by
  induction bytes generalizing m a with
  | nil => cases hl; exact h
  | cons b bs ih =>
    unfold portLoad at hl
    split at hl
    · next m' hw => exact ih m' (a + 1) (portWrite_wf _ _ _ _ h hw) hl
    · cases hl

end Machine

end Sys2Proof
end

