-- ==== Sys2Proof/Laws/Sequencer.lean ====
section
/-! SUPPORT. What the pc_sequencer can do (40_core_tick.md): the advance, the branch and the end-of-program check. -/

namespace Sys2Proof.Machine

@[simp] theorem State.seq_a (s : State) (n : Nat) : (s.seq n).a = s.a := rfl
@[simp] theorem State.seq_x (s : State) (n : Nat) : (s.seq n).x = s.x := rfl
@[simp] theorem State.seq_y (s : State) (n : Nat) : (s.seq n).y = s.y := rfl
@[simp] theorem State.seq_sp (s : State) (n : Nat) : (s.seq n).sp = s.sp := rfl
@[simp] theorem State.seq_p (s : State) (n : Nat) : (s.seq n).p = s.p := rfl
@[simp] theorem State.seq_status (s : State) (n : Nat) : (s.seq n).status = s.status := rfl
@[simp] theorem State.seq_mem (s : State) (n : Nat) : (s.seq n).mem = s.mem := rfl
@[simp] theorem State.seq_cfg (s : State) (n : Nat) : (s.seq n).cfg = s.cfg := rfl
@[simp] theorem State.seq_pending (s : State) (n : Nat) : (s.seq n).pending = s.pending := rfl
@[simp] theorem State.seq_diags (s : State) (n : Nat) : (s.seq n).diags = s.diags := rfl
@[simp] theorem State.readP_seq (s : State) (n : Nat) : (s.seq n).readP = s.readP := rfl
@[simp] theorem State.flag_seq (s : State) (n : Nat) (g : Flag) : (s.seq n).flag g = s.flag g := rfl
@[simp] theorem State.reg_seq (s : State) (n : Nat) (r : Reg) : (s.seq n).reg r = s.reg r := by
  cases r <;> rfl
@[simp] theorem State.read_seq (s : State) (n : Nat) (e : Addr) : (s.seq n).read e = s.read e := rfl

@[simp] theorem State.jump_a (s : State) (w : Addr) : (s.jump w).a = s.a := rfl
@[simp] theorem State.jump_x (s : State) (w : Addr) : (s.jump w).x = s.x := rfl
@[simp] theorem State.jump_y (s : State) (w : Addr) : (s.jump w).y = s.y := rfl
@[simp] theorem State.jump_sp (s : State) (w : Addr) : (s.jump w).sp = s.sp := rfl
@[simp] theorem State.jump_p (s : State) (w : Addr) : (s.jump w).p = s.p := rfl
@[simp] theorem State.jump_status (s : State) (w : Addr) : (s.jump w).status = s.status := rfl
@[simp] theorem State.jump_mem (s : State) (w : Addr) : (s.jump w).mem = s.mem := rfl
@[simp] theorem State.jump_cfg (s : State) (w : Addr) : (s.jump w).cfg = s.cfg := rfl
@[simp] theorem State.jump_pending (s : State) (w : Addr) : (s.jump w).pending = s.pending := rfl
@[simp] theorem State.jump_diags (s : State) (w : Addr) : (s.jump w).diags = s.diags := rfl
@[simp] theorem State.readP_jump (s : State) (w : Addr) : (s.jump w).readP = s.readP := rfl
@[simp] theorem State.flag_jump (s : State) (w : Addr) (g : Flag) : (s.jump w).flag g = s.flag g := rfl
@[simp] theorem State.reg_jump (s : State) (w : Addr) (r : Reg) : (s.jump w).reg r = s.reg r := by
  cases r <;> rfl
@[simp] theorem State.read_jump (s : State) (w : Addr) (e : Addr) : (s.jump w).read e = s.read e := rfl

@[simp] theorem State.seq_pc (s : State) (n : Nat) : (s.seq n).pc = s.pc + 1 + BitVec.ofNat 16 n := rfl
@[simp] theorem State.jump_pc (s : State) (w : Addr) : (s.jump w).pc = w := rfl

@[simp] theorem State.branch_a (s : State) (c : Bool) (d : Byte) : (s.branch c d).a = s.a := by
  cases c <;> rfl
@[simp] theorem State.branch_x (s : State) (c : Bool) (d : Byte) : (s.branch c d).x = s.x := by
  cases c <;> rfl
@[simp] theorem State.branch_y (s : State) (c : Bool) (d : Byte) : (s.branch c d).y = s.y := by
  cases c <;> rfl
@[simp] theorem State.branch_sp (s : State) (c : Bool) (d : Byte) : (s.branch c d).sp = s.sp := by
  cases c <;> rfl
@[simp] theorem State.branch_p (s : State) (c : Bool) (d : Byte) : (s.branch c d).p = s.p := by
  cases c <;> rfl
@[simp] theorem State.branch_status (s : State) (c : Bool) (d : Byte) : (s.branch c d).status = s.status := by
  cases c <;> rfl
@[simp] theorem State.branch_mem (s : State) (c : Bool) (d : Byte) : (s.branch c d).mem = s.mem := by
  cases c <;> rfl
@[simp] theorem State.branch_cfg (s : State) (c : Bool) (d : Byte) : (s.branch c d).cfg = s.cfg := by
  cases c <;> rfl
@[simp] theorem State.branch_pending (s : State) (c : Bool) (d : Byte) : (s.branch c d).pending = s.pending := by
  cases c <;> rfl
@[simp] theorem State.branch_diags (s : State) (c : Bool) (d : Byte) : (s.branch c d).diags = s.diags := by
  cases c <;> rfl
@[simp] theorem State.readP_branch (s : State) (c : Bool) (d : Byte) : (s.branch c d).readP = s.readP := by
  cases c <;> rfl
@[simp] theorem State.flag_branch (s : State) (c : Bool) (d : Byte) (g : Flag) : (s.branch c d).flag g = s.flag g := by
  cases c <;> rfl
@[simp] theorem State.reg_branch (s : State) (c : Bool) (d : Byte) (r : Reg) : (s.branch c d).reg r = s.reg r := by
  cases c <;> cases r <;> rfl
@[simp] theorem State.read_branch (s : State) (c : Bool) (d : Byte) (e : Addr) : (s.branch c d).read e = s.read e := by
  cases c <;> rfl

/-- The sequential advance is `(IA + 1 + n) mod 65536`. -/
theorem State.seq_pc_toNat (s : State) (n : Nat) : (s.seq n).pc.toNat = (s.pc.toNat + 1 + n) % 65536 := by
  simp [BitVec.toNat_add]

/-- The end check's test in natural numbers. -/
theorem State.belowEnd_iff (s : State) :
    s.belowEnd = true ↔ ∀ k, k ≤ operandCount (s.read s.pc) → (s.pc.toNat + k) % 65536 < s.cfg.progEnd := by
  simp [State.belowEnd, List.all_eq_true, BitVec.toNat_add]

/-- Everything the end check can do: nothing, or Halted with the diagnostic. -/
theorem State.checkEnd_cases (s : State) :
    (s.belowEnd = true ∧ s.checkEnd = s) ∨
      (s.belowEnd = false ∧ s.checkEnd = { s with status := .halted, diags := s.diags ++ [.endOfProgram s.pc] }) := by
  unfold State.checkEnd
  cases h : s.belowEnd
  · exact .inr ⟨rfl, rfl⟩
  · exact .inl ⟨rfl, rfl⟩

/-- Everything the end of a tick can do: Breakpointed where B is set, the end check otherwise. -/
theorem State.endTick_cases (s : State) :
    (s.flag .b = true ∧ s.endTick = { s with status := .breakpointed }) ∨
      (s.flag .b = false ∧ s.endTick = s.checkEnd) := by
  unfold State.endTick
  cases h : s.flag .b
  · exact .inr ⟨rfl, rfl⟩
  · exact .inl ⟨rfl, rfl⟩

/-! ### The fields the end check and the end of a tick leave -/

@[simp] theorem State.checkEnd_a (s : State) : s.checkEnd.a = s.a := by
  unfold State.checkEnd; split <;> rfl
@[simp] theorem State.checkEnd_x (s : State) : s.checkEnd.x = s.x := by
  unfold State.checkEnd; split <;> rfl
@[simp] theorem State.checkEnd_y (s : State) : s.checkEnd.y = s.y := by
  unfold State.checkEnd; split <;> rfl
@[simp] theorem State.checkEnd_sp (s : State) : s.checkEnd.sp = s.sp := by
  unfold State.checkEnd; split <;> rfl
@[simp] theorem State.checkEnd_pc (s : State) : s.checkEnd.pc = s.pc := by
  unfold State.checkEnd; split <;> rfl
@[simp] theorem State.checkEnd_p (s : State) : s.checkEnd.p = s.p := by
  unfold State.checkEnd; split <;> rfl
@[simp] theorem State.checkEnd_mem (s : State) : s.checkEnd.mem = s.mem := by
  unfold State.checkEnd; split <;> rfl
@[simp] theorem State.checkEnd_cfg (s : State) : s.checkEnd.cfg = s.cfg := by
  unfold State.checkEnd; split <;> rfl
@[simp] theorem State.checkEnd_pending (s : State) : s.checkEnd.pending = s.pending := by
  unfold State.checkEnd; split <;> rfl
@[simp] theorem State.readP_checkEnd (s : State) : s.checkEnd.readP = s.readP := by
  simp [State.readP]
@[simp] theorem State.flag_checkEnd (s : State) (g : Flag) : s.checkEnd.flag g = s.flag g := by
  simp [State.flag]
@[simp] theorem State.read_checkEnd (s : State) (e : Addr) : s.checkEnd.read e = s.read e := by
  simp [State.read]
@[simp] theorem State.reg_checkEnd (s : State) (r : Reg) : s.checkEnd.reg r = s.reg r := by
  cases r <;> simp [State.reg]
@[simp] theorem State.belowEnd_checkEnd (s : State) : s.checkEnd.belowEnd = s.belowEnd := by
  simp [State.belowEnd]
@[simp] theorem State.endTick_a (s : State) : s.endTick.a = s.a := by
  unfold State.endTick; split
  · rfl
  · simp
@[simp] theorem State.endTick_x (s : State) : s.endTick.x = s.x := by
  unfold State.endTick; split
  · rfl
  · simp
@[simp] theorem State.endTick_y (s : State) : s.endTick.y = s.y := by
  unfold State.endTick; split
  · rfl
  · simp
@[simp] theorem State.endTick_sp (s : State) : s.endTick.sp = s.sp := by
  unfold State.endTick; split
  · rfl
  · simp
@[simp] theorem State.endTick_pc (s : State) : s.endTick.pc = s.pc := by
  unfold State.endTick; split
  · rfl
  · simp
@[simp] theorem State.endTick_p (s : State) : s.endTick.p = s.p := by
  unfold State.endTick; split
  · rfl
  · simp
@[simp] theorem State.endTick_mem (s : State) : s.endTick.mem = s.mem := by
  unfold State.endTick; split
  · rfl
  · simp
@[simp] theorem State.endTick_cfg (s : State) : s.endTick.cfg = s.cfg := by
  unfold State.endTick; split
  · rfl
  · simp
@[simp] theorem State.endTick_pending (s : State) : s.endTick.pending = s.pending := by
  unfold State.endTick; split
  · rfl
  · simp
@[simp] theorem State.readP_endTick (s : State) : s.endTick.readP = s.readP := by
  simp [State.readP]
@[simp] theorem State.flag_endTick (s : State) (g : Flag) : s.endTick.flag g = s.flag g := by
  simp [State.flag]
@[simp] theorem State.read_endTick (s : State) (e : Addr) : s.endTick.read e = s.read e := by
  simp [State.read]
@[simp] theorem State.reg_endTick (s : State) (r : Reg) : s.endTick.reg r = s.reg r := by
  cases r <;> simp [State.reg]
@[simp] theorem State.belowEnd_endTick (s : State) : s.endTick.belowEnd = s.belowEnd := by
  simp [State.belowEnd]

end Sys2Proof.Machine
end

