-- ==== Sys2Proof/Laws/Stack.lean ====
section
/-! SUPPORT. What each stack operation can do (20_memory.md R58 to R62). -/

namespace Sys2Proof.Machine

theorem stackAddr_toNat (sp : Byte) : (stackAddr sp).toNat = 256 + sp.toNat := by
  simp [stackAddr, BitVec.toNat_add]; omega

theorem stackAddr_inj (p q : Byte) : stackAddr p = stackAddr q ↔ p = q := by
  rw [← BitVec.toNat_inj, stackAddr_toNat, stackAddr_toNat, ← BitVec.toNat_inj]; omega

/-! ### `State.push` -/

@[simp] theorem State.push_a (s : State) (v : Byte) : (s.push v).a = s.a := rfl
@[simp] theorem State.push_x (s : State) (v : Byte) : (s.push v).x = s.x := rfl
@[simp] theorem State.push_y (s : State) (v : Byte) : (s.push v).y = s.y := rfl
@[simp] theorem State.push_pc (s : State) (v : Byte) : (s.push v).pc = s.pc := rfl
@[simp] theorem State.push_p (s : State) (v : Byte) : (s.push v).p = s.p := rfl
@[simp] theorem State.push_status (s : State) (v : Byte) : (s.push v).status = s.status := rfl
@[simp] theorem State.push_cfg (s : State) (v : Byte) : (s.push v).cfg = s.cfg := rfl
@[simp] theorem State.push_pending (s : State) (v : Byte) : (s.push v).pending = s.pending := rfl
@[simp] theorem State.push_diags (s : State) (v : Byte) : (s.push v).diags = s.diags := rfl
@[simp] theorem State.readP_push (s : State) (v : Byte) : (s.push v).readP = s.readP := rfl
@[simp] theorem State.flag_push (s : State) (v : Byte) (g : Flag) : (s.push v).flag g = s.flag g := rfl

/-! ### `State.push16` -/

@[simp] theorem State.push16_a (s : State) (w : Addr) : (s.push16 w).a = s.a := rfl
@[simp] theorem State.push16_x (s : State) (w : Addr) : (s.push16 w).x = s.x := rfl
@[simp] theorem State.push16_y (s : State) (w : Addr) : (s.push16 w).y = s.y := rfl
@[simp] theorem State.push16_pc (s : State) (w : Addr) : (s.push16 w).pc = s.pc := rfl
@[simp] theorem State.push16_p (s : State) (w : Addr) : (s.push16 w).p = s.p := rfl
@[simp] theorem State.push16_status (s : State) (w : Addr) : (s.push16 w).status = s.status := rfl
@[simp] theorem State.push16_cfg (s : State) (w : Addr) : (s.push16 w).cfg = s.cfg := rfl
@[simp] theorem State.push16_pending (s : State) (w : Addr) : (s.push16 w).pending = s.pending := rfl
@[simp] theorem State.push16_diags (s : State) (w : Addr) : (s.push16 w).diags = s.diags := rfl
@[simp] theorem State.readP_push16 (s : State) (w : Addr) : (s.push16 w).readP = s.readP := rfl
@[simp] theorem State.flag_push16 (s : State) (w : Addr) (g : Flag) : (s.push16 w).flag g = s.flag g := rfl

@[simp] theorem State.push_sp (s : State) (v : Byte) : (s.push v).sp = s.sp - 1 := rfl
@[simp] theorem State.push16_sp (s : State) (w : Addr) : (s.push16 w).sp = s.sp - 1 - 1 := rfl

/-! ### The pops -/

@[simp] theorem State.clearPopped_a (s : State) (q : Addr) : (s.clearPopped q).a = s.a := by
  unfold State.clearPopped; split <;> rfl
@[simp] theorem State.clearPopped_x (s : State) (q : Addr) : (s.clearPopped q).x = s.x := by
  unfold State.clearPopped; split <;> rfl
@[simp] theorem State.clearPopped_y (s : State) (q : Addr) : (s.clearPopped q).y = s.y := by
  unfold State.clearPopped; split <;> rfl
@[simp] theorem State.clearPopped_pc (s : State) (q : Addr) : (s.clearPopped q).pc = s.pc := by
  unfold State.clearPopped; split <;> rfl
@[simp] theorem State.clearPopped_p (s : State) (q : Addr) : (s.clearPopped q).p = s.p := by
  unfold State.clearPopped; split <;> rfl
@[simp] theorem State.clearPopped_status (s : State) (q : Addr) : (s.clearPopped q).status = s.status := by
  unfold State.clearPopped; split <;> rfl
@[simp] theorem State.clearPopped_cfg (s : State) (q : Addr) : (s.clearPopped q).cfg = s.cfg := by
  unfold State.clearPopped; split <;> rfl
@[simp] theorem State.clearPopped_pending (s : State) (q : Addr) : (s.clearPopped q).pending = s.pending := by
  unfold State.clearPopped; split <;> rfl
@[simp] theorem State.clearPopped_diags (s : State) (q : Addr) : (s.clearPopped q).diags = s.diags := by
  unfold State.clearPopped; split <;> rfl
@[simp] theorem State.clearPopped_sp (s : State) (q : Addr) : (s.clearPopped q).sp = s.sp := by
  unfold State.clearPopped; split <;> rfl
@[simp] theorem State.readP_clearPopped (s : State) (q : Addr) : (s.clearPopped q).readP = s.readP := by
  simp [State.readP]
@[simp] theorem State.flag_clearPopped (s : State) (q : Addr) (g : Flag) : (s.clearPopped q).flag g = s.flag g := by
  simp [State.flag]

@[simp] theorem State.popState_a (s : State) : s.popState.a = s.a := by
  simp [State.popState]
@[simp] theorem State.popState_x (s : State) : s.popState.x = s.x := by
  simp [State.popState]
@[simp] theorem State.popState_y (s : State) : s.popState.y = s.y := by
  simp [State.popState]
@[simp] theorem State.popState_pc (s : State) : s.popState.pc = s.pc := by
  simp [State.popState]
@[simp] theorem State.popState_p (s : State) : s.popState.p = s.p := by
  simp [State.popState]
@[simp] theorem State.popState_status (s : State) : s.popState.status = s.status := by
  simp [State.popState]
@[simp] theorem State.popState_cfg (s : State) : s.popState.cfg = s.cfg := by
  simp [State.popState]
@[simp] theorem State.popState_pending (s : State) : s.popState.pending = s.pending := by
  simp [State.popState]
@[simp] theorem State.popState_diags (s : State) : s.popState.diags = s.diags := by
  simp [State.popState]
@[simp] theorem State.readP_popState (s : State) : s.popState.readP = s.readP := by
  simp [State.readP]
@[simp] theorem State.flag_popState (s : State) (g : Flag) : s.popState.flag g = s.flag g := by
  simp [State.flag]
@[simp] theorem State.pop16State_a (s : State) : s.pop16State.a = s.a := by
  simp [State.pop16State]
@[simp] theorem State.pop16State_x (s : State) : s.pop16State.x = s.x := by
  simp [State.pop16State]
@[simp] theorem State.pop16State_y (s : State) : s.pop16State.y = s.y := by
  simp [State.pop16State]
@[simp] theorem State.pop16State_pc (s : State) : s.pop16State.pc = s.pc := by
  simp [State.pop16State]
@[simp] theorem State.pop16State_p (s : State) : s.pop16State.p = s.p := by
  simp [State.pop16State]
@[simp] theorem State.pop16State_status (s : State) : s.pop16State.status = s.status := by
  simp [State.pop16State]
@[simp] theorem State.pop16State_cfg (s : State) : s.pop16State.cfg = s.cfg := by
  simp [State.pop16State]
@[simp] theorem State.pop16State_pending (s : State) : s.pop16State.pending = s.pending := by
  simp [State.pop16State]
@[simp] theorem State.pop16State_diags (s : State) : s.pop16State.diags = s.diags := by
  simp [State.pop16State]
@[simp] theorem State.readP_pop16State (s : State) : s.pop16State.readP = s.readP := by
  simp [State.readP]
@[simp] theorem State.flag_pop16State (s : State) (g : Flag) : s.pop16State.flag g = s.flag g := by
  simp [State.flag]
@[simp] theorem State.popState_sp (s : State) : s.popState.sp = s.sp + 1 := by
  simp [State.popState]
@[simp] theorem State.pop16State_sp (s : State) : s.pop16State.sp = s.sp + 1 + 1 := by
  simp [State.pop16State]

/-! ### What the stack operations do to memory -/

/-- A push writes the byte SP names and no other. -/
theorem State.read_push (s : State) (v : Byte) (e : Addr) :
    (s.push v).read e = if e = stackAddr s.sp then v else s.read e := by
  simp [State.push, State.read_write]

theorem State.read_clearPopped (s : State) (q e : Addr) :
    (s.clearPopped q).read e = if s.cfg.clearOnPop = true ∧ e = q then 0x00 else s.read e := by
  unfold State.clearPopped
  by_cases h : s.cfg.clearOnPop = true <;> simp [h, State.read_write]

/-- A pop leaves memory alone, but for the popped byte under `CLEAR_ON_POP`. -/
theorem State.read_popState (s : State) (e : Addr) :
    s.popState.read e = if s.cfg.clearOnPop = true ∧ e = stackAddr (s.sp + 1) then 0x00 else s.read e := by
  simp [State.popState, State.read_clearPopped]

/-- A pop after a push gives the pushed byte. -/
@[simp] theorem State.popValue_push (s : State) (v : Byte) : (s.push v).popValue = v := by
  simp [State.popValue, State.read_push]

theorem leWord_lo_hi (w : Addr) : leWord (loByte w) (hiByte w) = w := by
  unfold leWord loByte hiByte
  apply BitVec.eq_of_getLsbD_eq
  intro k hk
  simp only [BitVec.getLsbD_append, BitVec.getLsbD_extractLsb']
  by_cases h : k < 8
  · simp [h]
  · have : k - 8 < 8 := by omega
    have e : 8 + (k - 8) = k := by omega
    simp [h, this, e]

theorem leWord_toNat (lo hi : Byte) : (leWord lo hi).toNat = lo.toNat + 256 * hi.toNat := by
  have hl := lo.isLt
  have hh := hi.isLt
  unfold leWord
  rw [BitVec.toNat_append, ← Nat.shiftLeft_add_eq_or_of_lt hl, Nat.shiftLeft_eq]
  omega

/-- A word popped after it is pushed is the word, whatever the pop policy. -/
@[simp] theorem State.pop16Value_push16 (s : State) (w : Addr) : (s.push16 w).pop16Value = w := by
  have h : (s.push16 w).popState.popValue = hiByte w := by
    have hne : stackAddr (s.sp - 1 - 1 + 1 + 1) ≠ stackAddr (s.sp - 1 - 1 + 1) := by
      rw [Ne, stackAddr_inj]
      have : ∀ q : Byte, q - 1 - 1 + 1 + 1 ≠ q - 1 - 1 + 1 := by decide
      exact this s.sp
    have he : s.sp - 1 - 1 + 1 + 1 = s.sp := by
      have : ∀ q : Byte, q - 1 - 1 + 1 + 1 = q := by decide
      exact this s.sp
    have hn : s.sp ≠ s.sp - 1 := by
      have : ∀ q : Byte, q ≠ q - 1 := by decide
      exact this s.sp
    simp only [State.popValue, State.popState_sp, State.push16_sp, State.read_popState, hne, and_false, if_false]
    rw [he]
    simp only [State.push16, State.read_push, stackAddr_inj, State.push_sp, if_neg hn, if_true]
  have hlo : (s.push16 w).popValue = loByte w := by simp [State.push16]
  simp [State.pop16Value, h, hlo, leWord_lo_hi]

/-! ### The stack operations keep the canonical form -/

theorem State.wf_push (s : State) (v : Byte) (h : s.mem.wf) : (s.push v).mem.wf := s.wf_write _ _ h

theorem State.wf_push16 (s : State) (w : Addr) (h : s.mem.wf) : (s.push16 w).mem.wf :=
  State.wf_push _ _ (s.wf_push _ h)

theorem State.wf_popState (s : State) (h : s.mem.wf) : s.popState.mem.wf := by
  unfold State.popState State.clearPopped
  split
  · exact State.wf_write _ _ _ h
  · exact h

theorem State.wf_pop16State (s : State) (h : s.mem.wf) : s.pop16State.mem.wf :=
  State.wf_popState _ (s.wf_popState h)

end Sys2Proof.Machine
end

