-- ==== Sys2Proof/Laws/Shapes.lean ====
section
/-! SUPPORT. For each shared operation the meanings are written over, one lemma that says everything it can do: the
result, the flags, PC, and the frame. The proofs about instructions cite these and unfold none of them. -/

namespace Sys2Proof.Machine

/-- Frames compose where nothing is emitted first: what two steps may change together. -/
theorem Frame.trans {r₁ r₂ : List Reg} {f₁ f₂ : List Flag} {m₁ m₂ : List Addr} {o : List Diag} {s t u : State}
    (h : Frame r₁ f₁ m₁ [] s t) (k : Frame r₂ f₂ m₂ o t u) :
    Frame (r₁ ++ r₂) (f₁ ++ f₂) (m₁ ++ m₂) o s u where
  regs r hr := by
    simp only [List.mem_append, not_or] at hr
    rw [k.regs r hr.2, h.regs r hr.1]
  flags f hf := by
    simp only [List.mem_append, not_or] at hf
    rw [k.flags f hf.2, h.flags f hf.1]
  bit5 := k.bit5
  memory e he := by
    simp only [List.mem_append, not_or] at he
    rw [k.memory e he.2, h.memory e he.1]
  status := by rw [k.status, h.status]
  cfg := by rw [k.cfg, h.cfg]
  pending := by rw [k.pending, h.pending]
  diags := by rw [k.diags, h.diags]; simp

/-- A frame may be read as a wider one. -/
theorem Frame.weaken {r₁ r₂ : List Reg} {f₁ f₂ : List Flag} {m₁ m₂ : List Addr} {o : List Diag} {s t : State}
    (h : Frame r₁ f₁ m₁ o s t) (hr : r₁ ⊆ r₂) (hf : f₁ ⊆ f₂) (hm : m₁ ⊆ m₂) : Frame r₂ f₂ m₂ o s t where
  regs r hn := h.regs r (fun hi => hn (hr hi))
  flags f hn := h.flags f (fun hi => hn (hf hi))
  bit5 := h.bit5
  memory e hn := h.memory e (fun hi => hn (hm hi))
  status := h.status
  cfg := h.cfg
  pending := h.pending
  diags := h.diags

/-! ### The plain writes -/

theorem State.setReg_frame (s : State) (r : Reg) (v : Byte) : Frame [r] [] [] [] s (s.setReg r v) where
  regs q hq := by simp [State.reg_setReg, List.mem_singleton.not.mp hq]
  flags _ _ := by simp
  bit5 := by simp
  memory _ _ := by simp
  status := by simp
  cfg := by simp
  pending := by simp
  diags := by simp

theorem State.setFlag_frame (s : State) (f : Flag) (b : Bool) : Frame [] [f] [] [] s (s.setFlag f b) where
  regs _ _ := by simp
  flags g hg := by simp [State.flag_setFlag, List.mem_singleton.not.mp hg]
  bit5 := by simp
  memory _ _ := by simp
  status := by simp
  cfg := by simp
  pending := by simp
  diags := by simp

theorem State.write_frame (s : State) (q : Addr) (v : Byte) : Frame [] [] [q] [] s (s.write q v) where
  regs _ _ := by simp
  flags _ _ := by simp
  bit5 := by simp
  memory e he := s.read_write_ne q e v (List.mem_singleton.not.mp he)
  status := by simp
  cfg := by simp
  pending := by simp
  diags := by simp

theorem State.setPC_frame (s : State) (w : Addr) : Frame [] [] [] [] s (s.setPC w) where
  regs _ _ := by simp
  flags _ _ := by simp
  bit5 := by simp
  memory _ _ := by simp
  status := by simp
  cfg := by simp
  pending := by simp
  diags := by simp

theorem State.emit_frame (s : State) (d : Diag) : Frame [] [] [] [d] s (s.emit d) where
  regs _ _ := by simp
  flags _ _ := by simp
  bit5 := by simp
  memory _ _ := by simp
  status := by simp
  cfg := by simp
  pending := by simp
  diags := by simp

theorem State.seq_frame (s : State) (n : Nat) : Frame [] [] [] [] s (s.seq n) := s.setPC_frame _

theorem State.jump_frame (s : State) (w : Addr) : Frame [] [] [] [] s (s.jump w) := s.setPC_frame _

theorem State.branch_frame (s : State) (c : Bool) (d : Byte) : Frame [] [] [] [] s (s.branch c d) := by
  cases c
  · exact s.seq_frame 1
  · exact s.jump_frame _

theorem State.setZN_frame (s : State) (r : Byte) : Frame [] [.z, .n] [] [] s (s.setZN r) :=
  (s.setFlag_frame _ _).trans (State.setFlag_frame _ _ _)

/-! ### The shapes of the data instructions -/

/-- A flag report survives the advance. -/
theorem ReportsZN.seq {r : Byte} {s : State} (h : ReportsZN r s) (n : Nat) : ReportsZN r (s.seq n) := h

theorem State.advances_seq (s t : State) (n : Nat) (h : t.pc = s.pc) : AdvancesBy n s (t.seq n) := by
  unfold AdvancesBy
  rw [State.seq_pc_toNat, h]

/-- A register and Z, N written, then the advance: loads, transfers, register increments, AND. -/
theorem State.setRegZN_seq (s : State) (r : Reg) (v : Byte) (n : Nat) :
    ((s.setRegZN r v).seq n).reg r = v ∧ ReportsZN v ((s.setRegZN r v).seq n) ∧
      AdvancesBy n s ((s.setRegZN r v).seq n) ∧ Frame [r] [.z, .n] [] [] s ((s.setRegZN r v).seq n) := by
  refine ⟨?_, (State.setZN_reports _ v).seq n, s.advances_seq _ n ?_, ?_⟩
  · simp [State.setRegZN, State.reg_setReg]
  · simp [State.setRegZN]
  · exact ((s.setReg_frame r v).trans (State.setZN_frame _ v)).trans (State.seq_frame _ n)

/-- A store: the byte, PC and the frame. -/
theorem State.store_spec (s : State) (r : Reg) (dst : MemOperand) :
    (s.store r dst).read (dst.ea s) = s.reg r ∧ AdvancesBy dst.mode.count s (s.store r dst) ∧
      Frame [] [] [dst.ea s] [] s (s.store r dst) := by
  refine ⟨by simp [State.store], s.advances_seq _ _ (by simp), ?_⟩
  exact (s.write_frame _ _).trans (State.seq_frame _ _)

/-- A read-modify-write: the byte, Z and N, PC and the frame. -/
theorem State.modify_spec (s : State) (m : MemOperand) (f : Byte → Byte) :
    (s.modify m f).read (m.ea s) = f (s.read (m.ea s)) ∧ ReportsZN (f (s.read (m.ea s))) (s.modify m f) ∧
      AdvancesBy m.mode.count s (s.modify m f) ∧ Frame [] [.z, .n] [m.ea s] [] s (s.modify m f) := by
  refine ⟨by simp [State.modify], (State.setZN_reports _ _).seq _, s.advances_seq _ _ (by simp), ?_⟩
  exact ((s.write_frame _ _).trans (State.setZN_frame _ _)).trans (State.seq_frame _ _)

/-- A sum written to A and the flags, then the advance. -/
theorem State.putSum_seq (s : State) (u : Sum) (n : Nat) :
    ((s.putSum u).seq n).a = u.r ∧ ((s.putSum u).seq n).flag .c = u.c ∧ ((s.putSum u).seq n).flag .v = u.v ∧
      ReportsZN u.r ((s.putSum u).seq n) ∧ AdvancesBy n s ((s.putSum u).seq n) ∧
      Frame [.a] [.c, .z, .v, .n] [] [] s ((s.putSum u).seq n) := by
  refine ⟨by simp [State.putSum], by simp [State.putSum, State.flag_setZN, State.flag_setFlag],
    by simp [State.putSum, State.flag_setZN], (State.setZN_reports _ _).seq n,
    s.advances_seq _ n (by simp [State.putSum]), ?_⟩
  exact (((((s.setReg_frame _ _).trans (State.setFlag_frame _ _ _)).trans (State.setFlag_frame _ _ _)).trans
    (State.setZN_frame _ _)).trans (State.seq_frame _ n)).weaken (by decide) (by decide) (by simp)

/-- A comparison. -/
theorem State.compare_spec (s : State) (r : Reg) (src : Src) :
    (s.compare r src).flag .c = (cmp8 (s.reg r) (src.value s)).c ∧
      (s.compare r src).flag .z = (cmp8 (s.reg r) (src.value s)).z ∧
      (s.compare r src).flag .n = (cmp8 (s.reg r) (src.value s)).n ∧
      AdvancesBy src.mode.count s (s.compare r src) ∧ Frame [] [.c, .z, .n] [] [] s (s.compare r src) := by
  refine ⟨?_, ?_, ?_, s.advances_seq _ _ (by simp [State.putComparison]), ?_⟩
  · simp [State.compare, State.putComparison, State.flag_setFlag]
  · simp [State.compare, State.putComparison, State.flag_setFlag]
  · simp [State.compare, State.putComparison]
  · exact (((s.setFlag_frame _ _).trans (State.setFlag_frame _ _ _)).trans (State.setFlag_frame _ _ _)).trans
      (State.seq_frame _ _)

/-- BIT: Z, V and N from the test, no register and no byte. -/
theorem State.bitTest_spec (s : State) (m : MemOperand) :
    let k := bit8 s.a (s.read (m.ea s))
    let t := (((s.setFlag .z k.z).setFlag .v k.v).setFlag .n k.n).seq m.mode.count
    t.flag .z = k.z ∧ t.flag .v = k.v ∧ t.flag .n = k.n ∧ AdvancesBy m.mode.count s t ∧
      Frame [] [.z, .v, .n] [] [] s t := by
  refine ⟨by simp [State.flag_setFlag], by simp [State.flag_setFlag], by simp, s.advances_seq _ _ (by simp), ?_⟩
  exact (((s.setFlag_frame _ _).trans (State.setFlag_frame _ _ _)).trans (State.setFlag_frame _ _ _)).trans
    (State.seq_frame _ _)

/-- LSR A: the halved byte in A, the outgoing bit in C. -/
theorem State.lsrA_spec (s : State) :
    let k := lsr8 s.a
    let t := (((s.setReg .a k.r).setFlag .c k.c).setZN k.r).seq 0
    t.a = k.r ∧ t.flag .c = k.c ∧ ReportsZN k.r t ∧ AdvancesBy 0 s t ∧ Frame [.a] [.c, .z, .n] [] [] s t := by
  refine ⟨by simp, by simp [State.flag_setZN], (State.setZN_reports _ _).seq _, s.advances_seq _ _ (by simp), ?_⟩
  exact (((s.setReg_frame _ _).trans (State.setFlag_frame _ _ _)).trans (State.setZN_frame _ _)).trans
    (State.seq_frame _ _)

/-- LSR memory: the halved byte at the effective address, the outgoing bit in C. -/
theorem State.lsrMem_spec (s : State) (m : MemOperand) :
    let k := lsr8 (s.read (m.ea s))
    let t := (((s.write (m.ea s) k.r).setFlag .c k.c).setZN k.r).seq m.mode.count
    t.read (m.ea s) = k.r ∧ t.flag .c = k.c ∧ ReportsZN k.r t ∧ AdvancesBy m.mode.count s t ∧
      Frame [] [.c, .z, .n] [m.ea s] [] s t := by
  refine ⟨by simp, by simp [State.flag_setZN], (State.setZN_reports _ _).seq _, s.advances_seq _ _ (by simp), ?_⟩
  exact (((s.write_frame _ _).trans (State.setFlag_frame _ _ _)).trans (State.setZN_frame _ _)).trans
    (State.seq_frame _ _)

/-- A diagnostic, then the advance: UNKNOWN. -/
theorem State.emit_seq_frame (s : State) (d : Diag) (n : Nat) : Frame [] [] [] [d] s ((s.emit d).seq n) where
  regs _ _ := by simp
  flags _ _ := by simp
  bit5 := by simp
  memory _ _ := by simp
  status := by simp
  cfg := by simp
  pending := by simp
  diags := by simp

/-! ### The stack's shapes -/

theorem State.push_frame (s : State) (v : Byte) : Frame [.sp] [] [stackAddr s.sp] [] s (s.push v) :=
  (s.write_frame _ _).trans (State.setReg_frame _ _ _)

theorem State.push16_frame (s : State) (w : Addr) :
    Frame [.sp] [] [stackAddr s.sp, stackAddr (s.sp - 1)] [] s (s.push16 w) :=
  ((s.push_frame _).trans (State.push_frame _ _)).weaken (by decide) (by simp) (by simp)

/-- The breakpoint entry: three stack bytes, SP and B. -/
theorem State.enterBreakpoint_frame (s : State) :
    Frame [.sp] [.b] [stackAddr s.sp, stackAddr (s.sp - 1), stackAddr (s.sp - 2)] [] s s.enterBreakpoint := by
  have h := ((s.push16_frame s.pc).trans (State.push_frame _ s.readP)).trans (State.setFlag_frame _ .b true)
  have e : s.sp - 1 - 1 = s.sp - 2 := by
    have : ∀ q : Byte, q - 1 - 1 = q - 2 := by decide
    exact this s.sp
  rw [State.push16_sp, e] at h
  exact h.weaken (by decide) (by decide) (by simp)

/-- A pop without clearing leaves all of memory. -/
theorem State.popState_frame_kept (s : State) (h : s.cfg.clearOnPop = false) : Frame [.sp] [] [] [] s s.popState := by
  have e : s.popState = s.setReg .sp (s.sp + 1) := by simp [State.popState, State.clearPopped, h]
  rw [e]
  exact s.setReg_frame _ _

/-- A pop with clearing leaves all but the popped byte. -/
theorem State.popState_frame (s : State) : Frame [.sp] [] [stackAddr (s.sp + 1)] [] s s.popState := by
  unfold State.popState State.clearPopped
  split
  · exact (s.setReg_frame _ _).trans (State.write_frame _ _ _)
  · exact (s.setReg_frame _ _).weaken (by simp) (by simp) (by simp)

end Sys2Proof.Machine
end

