-- ==== Sys2Proof/Laws/Exec.lean ====
section
/-! SUPPORT. What every instruction and every event has in common: it answers a next state, leaves the status, the
parameters and the queue of host events alone, and keeps memory canonical. -/

namespace Sys2Proof.Machine

/-- The state an instruction leads to. -/
def after (i : Instr) (s : State) : State :=
  match exec i s with
  | .next t => t
  | .fault _ => s
  | .refused _ => s

/-- Every instruction answers a next state, in every state and for every operand. -/
theorem exec_eq_after (i : Instr) (s : State) : exec i s = .next (after i s) := by
  cases i <;> rfl

theorem after_of_exec {i : Instr} {s t : State} (h : exec i s = .next t) : after i s = t := by
  simpa [exec_eq_after] using h

/-- The registers an instruction can change. -/
def changedRegs : Instr → List Reg
  | .lda _ | .txa | .and _ | .lsrA | .adc _ | .sbc _ => [.a]
  | .ldx _ | .tax | .inx | .dex => [.x]
  | .ldy _ | .iny => [.y]
  | .jsr _ | .rts | .pha | .brk => [.sp]
  | .pla => [.a, .sp]
  | .sta _ | .stx _ | .sty _ | .inc _ | .dec _ | .bit _ | .lsr _ | .cmp _ | .cpx _ | .cpy _ | .bcc _ | .bcs _ | .beq _
  | .bne _ | .bpl _ | .jmp _ | .jmpInd _ | .sec | .clc | .nop | .unknown _ => []

/-- The flags an instruction can change. -/
def changedFlags : Instr → List Flag
  | .lda _ | .ldx _ | .ldy _ | .tax | .txa | .inx | .iny | .dex | .inc _ | .dec _ | .and _ | .pla => [.z, .n]
  | .bit _ => [.z, .v, .n]
  | .lsrA | .lsr _ | .cmp _ | .cpx _ | .cpy _ => [.c, .z, .n]
  | .adc _ | .sbc _ => [.c, .z, .v, .n]
  | .sec | .clc => [.c]
  | .brk => [.b]
  | .sta _ | .stx _ | .sty _ | .bcc _ | .bcs _ | .beq _ | .bne _ | .bpl _ | .jmp _ | .jmpInd _ | .jsr _ | .rts | .pha
  | .nop | .unknown _ => []

/-- The addresses an instruction stores to. -/
def storedAt (i : Instr) (s : State) : List Addr :=
  match i with
  | .sta m | .stx m | .sty m | .inc m | .dec m | .lsr m => [m.ea s]
  | .jsr _ => [stackAddr s.sp, stackAddr (s.sp - 1)]
  | .pha => [stackAddr s.sp]
  | .brk => [stackAddr s.sp, stackAddr (s.sp - 1), stackAddr (s.sp - 2)]
  | .pla => if s.cfg.clearOnPop then [stackAddr (s.sp + 1)] else []
  | .rts => if s.cfg.clearOnPop then [stackAddr (s.sp + 1), stackAddr (s.sp + 1 + 1)] else []
  | .lda _ | .ldx _ | .ldy _ | .tax | .txa | .inx | .iny | .dex | .and _ | .bit _ | .lsrA | .adc _ | .sbc _ | .cmp _
  | .cpx _ | .cpy _ | .bcc _ | .bcs _ | .beq _ | .bne _ | .bpl _ | .jmp _ | .jmpInd _ | .sec | .clc | .nop
  | .unknown _ => []

/-- The diagnostics an instruction emits. -/
def emitted (i : Instr) (s : State) : List Diag :=
  match i with
  | .unknown op => [.unknownOpcode op s.pc]
  | .lda _ | .ldx _ | .ldy _ | .sta _ | .stx _ | .sty _ | .tax | .txa | .inx | .iny | .dex | .inc _ | .dec _ | .and _
  | .bit _ | .lsrA | .lsr _ | .adc _ | .sbc _ | .cmp _ | .cpx _ | .cpy _ | .bcc _ | .bcs _ | .beq _ | .bne _ | .bpl _
  | .jmp _ | .jmpInd _ | .jsr _ | .rts | .pha | .pla | .sec | .clc | .nop | .brk => []

theorem rts_frame (s : State) :
    Frame [.sp] [] (if s.cfg.clearOnPop then [stackAddr (s.sp + 1), stackAddr (s.sp + 1 + 1)] else []) [] s
      (s.pop16State.jump (s.pop16Value + 1)) := by
  split
  · exact ((s.popState_frame.trans s.popState.popState_frame).trans (State.jump_frame _ _)).weaken (by decide)
      (by simp) (by simp)
  · next h =>
    have h : s.cfg.clearOnPop = false := by simpa using h
    have h' : s.popState.cfg.clearOnPop = false := by simpa using h
    exact (((s.popState_frame_kept h).trans (s.popState.popState_frame_kept h')).trans
      (State.jump_frame _ _)).weaken (by decide) (by simp) (by simp)

theorem pla_frame (s : State) :
    Frame [.a, .sp] [.z, .n] (if s.cfg.clearOnPop then [stackAddr (s.sp + 1)] else []) [] s
      ((s.popState.setRegZN .a s.popValue).seq 0) := by
  have k := (s.popState.setRegZN_seq .a s.popValue 0).2.2.2
  split
  · exact (s.popState_frame.trans k).weaken (by decide) (by simp) (by simp)
  · next h =>
    have h : s.cfg.clearOnPop = false := by simpa using h
    exact ((s.popState_frame_kept h).trans k).weaken (by decide) (by simp) (by simp)

/-- Everything an instruction can change: its registers, its flags, the bytes it stores, PC, and its diagnostics. It
leaves the status, the launch parameters and the host's pending events alone. -/
theorem after_frame (i : Instr) (s : State) :
    Frame (changedRegs i) (changedFlags i) (storedAt i s) (emitted i s) s (after i s) := by
  cases i
  case lda src => exact (s.setRegZN_seq .a (src.value s) src.mode.count).2.2.2
  case ldx src => exact (s.setRegZN_seq .x (src.value s) src.mode.count).2.2.2
  case ldy src => exact (s.setRegZN_seq .y (src.value s) src.mode.count).2.2.2
  case sta dst => exact (s.store_spec .a dst).2.2
  case stx dst => exact (s.store_spec .x dst).2.2
  case sty dst => exact (s.store_spec .y dst).2.2
  case tax => exact (s.setRegZN_seq .x s.a 0).2.2.2
  case txa => exact (s.setRegZN_seq .a s.x 0).2.2.2
  case inx => exact (s.setRegZN_seq .x (inc8 s.x) 0).2.2.2
  case iny => exact (s.setRegZN_seq .y (inc8 s.y) 0).2.2.2
  case dex => exact (s.setRegZN_seq .x (dec8 s.x) 0).2.2.2
  case inc m => exact (s.modify_spec m inc8).2.2.2
  case dec m => exact (s.modify_spec m dec8).2.2.2
  case and src => exact (s.setRegZN_seq .a (and8 s.a (src.value s)) src.mode.count).2.2.2
  case bit m => exact (s.bitTest_spec m).2.2.2.2
  case lsrA => exact s.lsrA_spec.2.2.2.2
  case lsr m => exact (s.lsrMem_spec m).2.2.2.2
  case adc src =>
    exact (s.putSum_seq (add8 s.a (src.value s) (s.flag .c)) src.mode.count).2.2.2.2.2
  case sbc src =>
    exact (s.putSum_seq (sub8 s.a (src.value s) (s.flag .c)) src.mode.count).2.2.2.2.2
  case cmp src => exact (s.compare_spec .a src).2.2.2.2
  case cpx src => exact (s.compare_spec .x src).2.2.2.2
  case cpy src => exact (s.compare_spec .y src).2.2.2.2
  case bcc d => exact s.branch_frame (!s.flag .c) d
  case bcs d => exact s.branch_frame (s.flag .c) d
  case beq d => exact s.branch_frame (s.flag .z) d
  case bne d => exact s.branch_frame (!s.flag .z) d
  case bpl d => exact s.branch_frame (!s.flag .n) d
  case jmp t => exact s.jump_frame t
  case jmpInd ptr => exact s.jump_frame (s.word16 ptr)
  case jsr t => exact (s.push16_frame (s.pc + 2)).trans (State.jump_frame _ t)
  case rts => exact rts_frame s
  case pha => exact (s.push_frame s.a).trans (State.seq_frame _ 0)
  case pla => exact pla_frame s
  case sec => exact (s.setFlag_frame .c true).trans (State.seq_frame _ 0)
  case clc => exact (s.setFlag_frame .c false).trans (State.seq_frame _ 0)
  case nop => exact s.seq_frame 0
  case brk => exact s.enterBreakpoint_frame.trans (State.seq_frame _ 0)
  case unknown op => exact s.emit_seq_frame (.unknownOpcode op s.pc) 0

/-- What an instruction changes, the register tables list as written. -/
theorem not_changedRegs (i : Instr) (r : Reg) (h : r.writtenBy i = false) : r ∉ changedRegs i := by
  cases i <;> cases r <;> revert h <;> simp [changedRegs, Reg.writtenBy, Instr.op]

theorem not_changedFlags (i : Instr) (f : Flag) (h : f.writtenBy i = false) : f ∉ changedFlags i := by
  cases i <;> cases f <;> revert h <;> simp [changedFlags, Flag.writtenBy, Instr.op]

theorem storedAt_nil (i : Instr) (s : State) (h : writesMemory s.cfg.clearOnPop i = false) : storedAt i s = [] := by
  cases i <;> revert h <;> simp +contextual [storedAt, writesMemory, Instr.op]

/-- B after an instruction: set by BRK, kept by every other. -/
theorem after_flag_b (i : Instr) (s : State) : (after i s).flag .b = (decide (i = .brk) || s.flag .b) := by
  cases i
  case brk => simp [after, exec, execBrk, State.enterBreakpoint]
  all_goals
    (simp only [reduceCtorEq, decide_false, Bool.false_or]; exact (after_frame _ s).flags .b (by simp [changedFlags]))

/-- An instruction leaves the status: the pc_sequencer alone writes it (40_core_tick.md R135). -/
theorem after_status (i : Instr) (s : State) : (after i s).status = s.status :=
  (after_frame i s).status

/-- An instruction leaves the launch parameters. -/
theorem after_cfg (i : Instr) (s : State) : (after i s).cfg = s.cfg :=
  (after_frame i s).cfg

/-- An instruction leaves the host's pending events. -/
theorem after_pending (i : Instr) (s : State) : (after i s).pending = s.pending :=
  (after_frame i s).pending

/-- Every instruction keeps memory canonical. -/
theorem after_mem_wf (i : Instr) (s : State) (h : s.mem.wf) : (after i s).mem.wf := by
  cases i
  case sta dst => exact s.wf_write _ _ h
  case stx dst => exact s.wf_write _ _ h
  case sty dst => exact s.wf_write _ _ h
  case inc m => exact s.wf_write _ _ h
  case dec m => exact s.wf_write _ _ h
  case lsr m => exact s.wf_write _ _ h
  case pha => exact s.wf_push _ h
  case jsr => exact s.wf_push16 _ h
  case brk => exact State.wf_push _ _ (s.wf_push16 _ h)
  case pla =>
    show (((s.popState.setRegZN .a s.popValue).seq 0)).mem.wf
    simpa [State.setRegZN] using s.wf_popState h
  case rts => exact s.wf_pop16State h
  case bcc d => show (s.branch (!s.flag .c) d).mem.wf; simpa using h
  case bcs d => show (s.branch (s.flag .c) d).mem.wf; simpa using h
  case beq d => show (s.branch (s.flag .z) d).mem.wf; simpa using h
  case bne d => show (s.branch (!s.flag .z) d).mem.wf; simpa using h
  case bpl d => show (s.branch (!s.flag .n) d).mem.wf; simpa using h
  all_goals exact h

/-- A tick is an instruction and the end of a tick if Running, and nothing otherwise. -/
theorem tick_eq (s : State) :
    tick s = .next (if s.status = .running then (after (s.instrAt s.pc) s).endTick else s) := by
  unfold tick
  split
  · rw [exec_eq_after]; rfl
  · rfl

/-- The loader, where the image fits, writes every byte and raises nothing. -/
theorem portLoad_ok (m : Memory) (a : Nat) (bytes : List Byte) (h : a + bytes.length ≤ 0x10000) :
    ∃ n, portLoad m (a : Int) bytes = .ok n ∧
      ∀ b : Nat, n.get b = if a ≤ b ∧ b < a + bytes.length then bytes.getD (b - a) 0x00 else m.get b := by
  induction bytes generalizing m a with
  | nil =>
    refine ⟨m, rfl, fun b => ?_⟩
    have h0 : ¬ (a ≤ b ∧ b < a + ([] : List Byte).length) := by simp
    rw [if_neg h0]
  | cons v rest ih =>
    simp only [List.length_cons] at h
    obtain ⟨n, hn, hg⟩ := ih (m.set a v) (a + 1) (by omega)
    refine ⟨n, ?_, fun b => ?_⟩
    · have hr : (0 : Int) ≤ a ∧ (a : Int) ≤ 65535 := by omega
      simp only [portLoad, portWrite, if_pos hr, Int.toNat_natCast]
      simpa using hn
    · rw [hg b, Memory.get_set]
      by_cases h1 : b = a
      · subst h1
        simp
      · by_cases h2 : a + 1 ≤ b ∧ b < a + 1 + rest.length
        · have h3 : a ≤ b ∧ b < a + (v :: rest).length := by simp only [List.length_cons]; omega
          have h4 : b - a = (b - (a + 1)) + 1 := by omega
          rw [if_pos h2, if_pos h3, h4]
          simp
        · have h3 : ¬ (a ≤ b ∧ b < a + (v :: rest).length) := by simp only [List.length_cons]; omega
          rw [if_neg h2, if_neg h3, if_neg h1]

end Sys2Proof.Machine
end

