-- ==== Sys2Proof/Laws/Commute.lean ====
section
/-! SUPPORT. Independence: writing a register or a flag first and then doing something that does not read it is doing
that thing and then writing; and two states that agree but for one flag still agree after a step of each. -/

namespace Sys2Proof

open Machine

/-! ### Operand forms read X and Y alone, and no flag -/

/-- A register that does not index the form leaves its address alone. -/
theorem MemOperand.ea_setReg (m : MemOperand) (s : State) (r : Reg) (v : Byte)
    (hx : r = .x → m.mode ∉ [Mode.zpx, .absx, .indx]) (hy : r = .y → m.mode ∉ [Mode.zpy, .absy, .indy]) :
    m.ea (s.setReg r v) = m.ea s := by
  cases r <;> cases m <;> first | rfl | simp [MemOperand.mode] at hx hy

theorem Src.value_setReg (src : Src) (s : State) (r : Reg) (v : Byte)
    (hx : r = .x → src.mode ∉ [Mode.zpx, .absx, .indx]) (hy : r = .y → src.mode ∉ [Mode.zpy, .absy, .indy]) :
    src.value (s.setReg r v) = src.value s := by
  cases src with
  | imm _ => rfl
  | mem m =>
    simp only [Src.value]
    rw [m.ea_setReg s r v hx hy]
    simp

@[simp] theorem MemOperand.ea_setFlag (m : MemOperand) (s : State) (f : Flag) (b : Bool) :
    m.ea (s.setFlag f b) = m.ea s := by
  cases m <;> rfl

@[simp] theorem Src.value_setFlag (src : Src) (s : State) (f : Flag) (b : Bool) :
    src.value (s.setFlag f b) = src.value s := by
  cases src with
  | imm _ => rfl
  | mem m => simp [Src.value]

namespace Machine

/-- A register an instruction does not read does not index its operand. -/
theorem not_indexed (i : Instr) (r : Reg) (h : r.readBy i = false) :
    (r = .x → i.mode ∉ [Mode.zpx, .absx, .indx]) ∧ (r = .y → i.mode ∉ [Mode.zpy, .absy, .indy]) := by
  constructor <;> rintro rfl <;> simp_all [Reg.readBy]

/-! ### Register writes commute with everything that does not read the register -/

theorem State.setFlag_setReg (s : State) (r : Reg) (v : Byte) (f : Flag) (b : Bool) :
    (s.setReg r v).setFlag f b = (s.setFlag f b).setReg r v := by
  cases r <;> rfl

theorem State.setZN_setReg (s : State) (r : Reg) (v : Byte) (u : Byte) :
    (s.setReg r v).setZN u = (s.setZN u).setReg r v := by
  cases r <;> rfl

theorem State.write_setReg (s : State) (r : Reg) (v : Byte) (q : Addr) (u : Byte) :
    (s.setReg r v).write q u = (s.write q u).setReg r v := by
  cases r <;> rfl

theorem State.emit_setReg (s : State) (r : Reg) (v : Byte) (d : Diag) :
    (s.setReg r v).emit d = (s.emit d).setReg r v := by
  cases r <;> rfl

theorem State.setPC_setReg (s : State) (r : Reg) (v : Byte) (w : Addr) :
    (s.setReg r v).setPC w = (s.setPC w).setReg r v := by
  cases r <;> rfl

theorem State.seq_setReg (s : State) (r : Reg) (v : Byte) (n : Nat) :
    (s.setReg r v).seq n = (s.seq n).setReg r v := by
  cases r <;> rfl

theorem State.jump_setReg (s : State) (r : Reg) (v : Byte) (w : Addr) :
    (s.setReg r v).jump w = (s.jump w).setReg r v := by
  cases r <;> rfl

theorem State.branch_setReg (s : State) (r : Reg) (v : Byte) (c : Bool) (d : Byte) :
    (s.setReg r v).branch c d = (s.branch c d).setReg r v := by
  cases c <;> cases r <;> rfl

theorem State.setReg_comm (s : State) (r q : Reg) (u v : Byte) (h : q ≠ r) :
    (s.setReg r v).setReg q u = (s.setReg q u).setReg r v := by
  cases r <;> cases q <;> first | rfl | exact absurd rfl h

theorem State.setReg_setReg (s : State) (r : Reg) (u v : Byte) : (s.setReg r v).setReg r u = s.setReg r u := by
  cases r <;> rfl

theorem State.setRegZN_setReg (s : State) (r q : Reg) (u v : Byte) :
    (s.setReg r v).setRegZN q u = if q = r then s.setRegZN q u else (s.setRegZN q u).setReg r v := by
  unfold State.setRegZN
  split
  · next h => rw [h, State.setReg_setReg]
  · next h => rw [State.setReg_comm _ _ _ _ _ h, State.setZN_setReg]

theorem State.putSum_setReg (s : State) (r : Reg) (v : Byte) (u : Sum) :
    (s.setReg r v).putSum u = if r = .a then s.putSum u else (s.putSum u).setReg r v := by
  cases r <;> rfl

theorem State.putComparison_setReg (s : State) (r : Reg) (v : Byte) (k : Comparison) :
    (s.setReg r v).putComparison k = (s.putComparison k).setReg r v := by
  cases r <;> rfl

/-! ### Two states that agree but for one flag -/

/-- `t` and `u` agree in all but one flag. -/
structure AgreeBut (f : Flag) (t u : State) : Prop where
  pc : u.pc = t.pc
  diags : u.diags = t.diags
  regs : ∀ r, u.reg r = t.reg r
  flags : ∀ g, g ≠ f → u.flag g = t.flag g
  memory : ∀ e, u.read e = t.read e
  cfg : u.cfg = t.cfg

theorem State.agreeBut_setFlag (s : State) (f : Flag) (b : Bool) : AgreeBut f s (s.setFlag f b) where
  pc := by simp
  diags := by simp
  regs := by simp
  flags g h := by simp [State.flag_setFlag, h]
  memory := by simp
  cfg := by simp

namespace AgreeBut

variable {f : Flag} {t u : State}

theorem sp (h : AgreeBut f t u) : u.sp = t.sp := h.regs .sp

theorem setReg (h : AgreeBut f t u) (r : Reg) (v : Byte) : AgreeBut f (t.setReg r v) (u.setReg r v) where
  pc := by simp [h.pc]
  diags := by simp [h.diags]
  regs := by simp [State.reg_setReg, h.regs]
  flags g hg := by simp [h.flags g hg]
  memory := by simp [h.memory]
  cfg := by simp [h.cfg]

theorem setFlag (h : AgreeBut f t u) (g : Flag) (b : Bool) : AgreeBut f (t.setFlag g b) (u.setFlag g b) where
  pc := by simp [h.pc]
  diags := by simp [h.diags]
  regs := by simp [h.regs]
  flags k hk := by simp [State.flag_setFlag, h.flags k hk]
  memory := by simp [h.memory]
  cfg := by simp [h.cfg]

theorem setZN (h : AgreeBut f t u) (v : Byte) : AgreeBut f (t.setZN v) (u.setZN v) :=
  (h.setFlag _ _).setFlag _ _

theorem write (h : AgreeBut f t u) (q : Addr) (v : Byte) : AgreeBut f (t.write q v) (u.write q v) where
  pc := by simp [h.pc]
  diags := by simp [h.diags]
  regs := by simp [h.regs]
  flags g hg := by simp [h.flags g hg]
  memory := by simp [State.read_write, h.memory]
  cfg := by simp [h.cfg]

theorem setPC (h : AgreeBut f t u) (w : Addr) : AgreeBut f (t.setPC w) (u.setPC w) where
  pc := by simp
  diags := by simp [h.diags]
  regs := by simp [h.regs]
  flags g hg := by simp [h.flags g hg]
  memory := by simp [h.memory]
  cfg := by simp [h.cfg]

theorem emit (h : AgreeBut f t u) (d : Diag) : AgreeBut f (t.emit d) (u.emit d) where
  pc := by simp [h.pc]
  diags := by simp [h.diags]
  regs := by simp [h.regs]
  flags g hg := by simp [h.flags g hg]
  memory := by simp [h.memory]
  cfg := by simp [h.cfg]

theorem seq (h : AgreeBut f t u) (n : Nat) : AgreeBut f (t.seq n) (u.seq n) := by
  unfold State.seq
  rw [h.pc]
  exact h.setPC _

theorem branch (h : AgreeBut f t u) (c : Bool) (d : Byte) : AgreeBut f (t.branch c d) (u.branch c d) := by
  cases c
  · exact h.seq 1
  · unfold State.branch State.jump
    rw [if_pos rfl, if_pos rfl, h.pc, h.cfg]
    exact h.setPC _

theorem push (h : AgreeBut f t u) (v : Byte) : AgreeBut f (t.push v) (u.push v) := by
  unfold State.push
  rw [h.sp]
  exact (h.write _ _).setReg _ _

theorem popState (h : AgreeBut f t u) : AgreeBut f t.popState u.popState := by
  unfold State.popState State.clearPopped
  simp only [State.setReg_cfg, h.sp, h.cfg]
  split
  · exact (h.setReg _ _).write _ _
  · exact h.setReg _ _

theorem popValue (h : AgreeBut f t u) : u.popValue = t.popValue := by
  unfold State.popValue
  rw [h.sp, h.memory]

end AgreeBut

end Machine

end Sys2Proof
end

