-- ==== Sys2Proof/Laws/Decode.lean ====
section
/-! SUPPORT. The laws of the dispatch table, the operand forms and the decoder. -/

namespace Sys2Proof

/-- A property of every byte, checked through its 256 numbers. -/
theorem forall_byte {P : Byte → Prop} (h : ∀ n : Fin 256, P (BitVec.ofFin n)) (b : Byte) : P b := h b.toFin

/-- No two rows of the table have one opcode byte: decoding is unambiguous. -/
theorem rows_opcodes_distinct : rows.Pairwise (fun r q => r.opcode ≠ q.opcode) := by decide +kernel

/-- No two rows of the table have one operation in one mode: encoding is unambiguous. -/
theorem rows_pairs_distinct : rows.Pairwise (fun r q => ¬ (r.op = q.op ∧ r.mode = q.mode)) := by decide +kernel

/-- The table populates exactly the bytes the matrix of R101 populates. -/
theorem dispatch_unknown_iff : ∀ b : Byte, (dispatch b).2 = .unknown ↔ populated b = false := by decide +kernel

/-- The byte of an entry, for every operation but UNKNOWN. -/
theorem opcodeOf_dispatch : ∀ b : Byte, (dispatch b).2 ≠ .unknown →
    opcodeOf (dispatch b).2 (dispatch b).1 = some b := by decide +kernel

/-- The modes of a populated entry are the ones the instruction's rule admits. -/
theorem dispatch_modes : ∀ b : Byte, (dispatch b).2.modes.contains (dispatch b).1 = true := by decide +kernel

/-- An admitted pair has an opcode byte, whose entry is that pair. -/
theorem dispatch_opcodeOf : ∀ r ∈ rows, opcodeOf r.op r.mode = some r.opcode ∧ dispatch r.opcode = (r.mode, r.op) := by
  decide +kernel

/-! ### Words -/

theorem loByte_leWord (lo hi : Byte) : loByte (leWord lo hi) = lo := by
  unfold leWord loByte
  apply BitVec.eq_of_getLsbD_eq
  intro k hk
  simp only [BitVec.getLsbD_append, BitVec.getLsbD_extractLsb', Nat.zero_add, hk, decide_true, Bool.true_and, if_true]

theorem hiByte_leWord (lo hi : Byte) : hiByte (leWord lo hi) = hi := by
  unfold leWord hiByte
  apply BitVec.eq_of_getLsbD_eq
  intro k hk
  have h : ¬ 8 + k < 8 := by omega
  simp only [BitVec.getLsbD_append, BitVec.getLsbD_extractLsb', hk, h, decide_true, Bool.true_and, if_false,
    Nat.add_sub_cancel_left]

/-! ### Operand forms -/

theorem MemOperand.length_bytes (m : MemOperand) : m.bytes.length = m.mode.count := by cases m <;> rfl

theorem Src.length_bytes (src : Src) : src.bytes.length = src.mode.count := by
  cases src with
  | imm v => rfl
  | mem m => exact m.length_bytes

/-- Everything decoding can do on a list that begins with a byte. -/
theorem decode_cons (op : Byte) (rest : List Byte) :
    decode (op :: rest) =
      match operandCount op, rest with
      | 0, rest => .ok (assemble op 0 0, rest)
      | 1, b1 :: rest => .ok (assemble op b1 0, rest)
      | 2, b1 :: b2 :: rest => .ok (assemble op b1 b2, rest)
      | _, _ => .error (.missingOperandByte op) := rfl

theorem Mode.count_le (m : Mode) : m.count ≤ 2 := by cases m <;> decide

theorem operandCount_le (op : Byte) : operandCount op ≤ 2 := Mode.count_le _

/-! ### What the decoder builds -/

/-- The mode of a decoded instruction is the mode of its opcode byte's entry. -/
theorem assemble_mode (op b1 b2 : Byte) : (assemble op b1 b2).mode = (dispatch op).1 := by
  have hm := dispatch_modes op
  unfold assemble
  generalize dispatch op = e at hm
  obtain ⟨mode, o⟩ := e
  cases o <;> cases mode <;> first | rfl | simp [Op.modes] at hm

/-- What the decoder builds from any opcode byte is well-formed. -/
theorem wellFormed_assemble (op b1 b2 : Byte) : WellFormed (assemble op b1 b2) = true := by
  have hm := dispatch_modes op
  have hu := dispatch_unknown_iff op
  unfold assemble
  generalize dispatch op = e at *
  obtain ⟨mode, o⟩ := e
  simp only at *
  cases o <;> cases mode <;> first
    | rfl
    | (simp [Op.modes] at hm; done)
    | (simp [pair, WellFormed, Instr.op, Instr.mode, Op.modes]; exact hu.mp rfl)

/-- What the decoder builds from an opcode byte and two operand bytes encodes as that byte and the ones it took. -/
theorem encode_assemble (op b1 b2 : Byte) :
    encode (assemble op b1 b2) = some (op :: [b1, b2].take (operandCount op)) := by
  have hm := dispatch_modes op
  have ho := opcodeOf_dispatch op
  have ha : assemble op b1 b2 = (pair (dispatch op).2 (dispatch op).1 b1 b2).getD (.unknown op) := rfl
  rw [ha, operandCount]
  by_cases hu : (dispatch op).2 = .unknown
  · rw [hu]
    have h1 : (dispatch op).1 = .imp := by
      rw [hu] at hm
      generalize (dispatch op).1 = m at hm
      cases m <;> simp [Op.modes] at hm ⊢
    simp [pair, encode, hu, h1, Mode.count]
  · have ho := ho hu
    generalize dispatch op = e at *
    obtain ⟨mode, o⟩ := e
    simp only at *
    cases o <;> cases mode <;> first
      | (simp [Op.modes] at hm; done)
      | (simp [pair, srcOf, memOf, encode, Instr.op, Instr.mode, Src.mode, MemOperand.mode, Instr.operandBytes,
          Src.bytes, MemOperand.bytes, Mode.count, loByte_leWord, hiByte_leWord, ho]; done)
      | (exact absurd rfl hu)

/-- An operand byte the opcode's mode does not consume has no part in the instruction. -/
theorem assemble_of_decode (op b1 b2 : Byte) (i : Instr) (rest : List Byte)
    (h : decode [op, b1, b2] = .ok (i, rest)) : assemble op b1 b2 = i := by
  have hm := dispatch_modes op
  rw [decode_cons] at h
  unfold operandCount at h
  unfold assemble at h ⊢
  generalize dispatch op = e at hm h
  obtain ⟨mode, o⟩ := e
  cases o <;> cases mode <;> first
    | (simp [Op.modes] at hm; done)
    | (cases h; rfl)

end Sys2Proof
end

