-- ==== Sys2Proof/Laws/Encodings.lean ====
section
/-! SUPPORT. The dispatch entries of an operation, read off the rows of the table: the opcode bytes are distinct, so a
byte's entry is a row of the table exactly when that row is listed. -/

namespace Sys2Proof

theorem find_opcode_of_mem (l : List Row) (h : l.Pairwise (fun r q => r.opcode ≠ q.opcode)) (r : Row) (hr : r ∈ l) :
    l.find? (fun q => q.opcode == r.opcode) = some r := by
  induction l with
  | nil => cases hr
  | cons q rest ih =>
    obtain ⟨hq, hrest⟩ := List.pairwise_cons.mp h
    rcases List.mem_cons.mp hr with rfl | hm
    · simp
    · have hne : (q.opcode == r.opcode) = false := by simpa using hq r hm
      simp [hne, ih hrest hm]

/-- A byte's entry is a listed row's, for every operation but UNKNOWN. -/
theorem dispatch_eq_iff (b : Byte) (mode : Mode) (op : Op) (hop : op ≠ .unknown) :
    dispatch b = (mode, op) ↔ (⟨b, mode, op⟩ : Row) ∈ rows := by
  constructor
  · intro h
    unfold dispatch at h
    split at h
    · next r hf =>
      have hb : r.opcode = b := by simpa using List.find?_some hf
      cases h
      have := List.mem_of_find?_eq_some hf
      cases r
      simp only at hb
      subst hb
      exact this
    · cases h
      exact absurd rfl hop
  · intro h
    have := find_opcode_of_mem rows rows_opcodes_distinct _ h
    simp only at this
    simp [dispatch, this]

namespace Machine

/-- The encodings of an operation are its rows of the table. -/
theorem hasEncodings_of_rows (op : Op) (l : List (Mode × Byte)) (hop : op ≠ .unknown)
    (h : (rows.filter (fun r => r.op == op)).map (fun r => (r.mode, r.opcode)) = l) : HasEncodings op l := by
  subst h
  intro mode b
  rw [dispatch_eq_iff b mode op hop]
  constructor
  · intro hm
    exact List.mem_map.mpr ⟨⟨b, mode, op⟩, List.mem_filter.mpr ⟨hm, by simp⟩, rfl⟩
  · intro hm
    obtain ⟨r, hr, he⟩ := List.mem_map.mp hm
    obtain ⟨hr', ho⟩ := List.mem_filter.mp hr
    cases r
    simp only [beq_iff_eq] at ho
    cases he
    subst ho
    exact hr'

end Machine

end Sys2Proof
end

