-- ==== Sys2Proof/Laws/Launch.lean ====
section
/-! SUPPORT. The default parameters of a launch (00_scope.md R8), at every `PROG_BASE`. -/

namespace Sys2Proof.Machine

@[simp] theorem defaultsFor_progBase (base : Addr) (image : List Byte) : (defaultsFor base image).progBase = base := rfl

@[simp] theorem defaultsFor_image (base : Addr) (image : List Byte) : (defaultsFor base image).image = image := rfl

@[simp] theorem defaultsFor_progEnd (base : Addr) (image : List Byte) :
    (defaultsFor base image).progEnd = base.toNat + image.length := rfl

@[simp] theorem defaultsFor_clearOnPop (base : Addr) (image : List Byte) :
    (defaultsFor base image).clearOnPop = false := rfl

@[simp] theorem defaultsFor_branchFwdBias (base : Addr) (image : List Byte) :
    (defaultsFor base image).branchFwdBias = false := rfl

/-- The default `INIT_MEM` is zeros with the image at `PROG_BASE`. -/
theorem defaultsFor_initMem_get (base : Addr) (image : List Byte) (b : Nat)
    (h : base.toNat + image.length ≤ 0x10000) :
    (defaultsFor base image).initMem.get b =
      if base.toNat ≤ b ∧ b < base.toNat + image.length then image.getD (b - base.toNat) 0x00 else 0x00 :=
  Memory.get_place [] base image b h

/-- The default `INIT_MEM` is canonical. -/
theorem defaultsFor_initMem_wf (base : Addr) (image : List Byte) : (defaultsFor base image).initMem.wf :=
  Memory.wf_place [] base image (by decide)

/-- The default parameters are a launch the spec defines exactly where the image fits. -/
theorem launchFits_defaultsFor (base : Addr) (image : List Byte) :
    launchFits (defaultsFor base image) = decide (base.toNat + image.length ≤ 0x10000) := by
  exact Bool.and_self _

/-- With no image and the default `PROG_BASE`, they are the parameters of `State.reset`. -/
theorem imageConfig_nil : imageConfig [] = Config.default := rfl

end Sys2Proof.Machine
end

