-- ==== Sys2Proof/Laws/Operands.lean ====
section
/-! SUPPORT. The resolver's pointers and operand forms, in natural numbers. -/

namespace Sys2Proof.Machine

theorem State.read_next (s : State) (p : Addr) (n : Nat) :
    s.read (p + BitVec.ofNat 16 n) = s.mem.get ((p.toNat + n) % 65536) := by
  simp [State.read, BitVec.toNat_add]

/-- A zero-page pointer wraps within the zero page. -/
theorem State.wordZP_eq (s : State) (p : Byte) : s.wordZP p = BitVec.ofNat 16 (wordZPAt s.mem p.toNat) := by
  apply BitVec.eq_of_toNat_eq
  have h1 := (s.mem.get (p.toNat % 256)).isLt
  have h2 := (s.mem.get ((p.toNat + 1) % 256)).isLt
  have hp := p.isLt
  have e1 : (p.setWidth 16).toNat = p.toNat % 256 := by simp; omega
  have e2 : ((p + 1).setWidth 16).toNat = (p.toNat + 1) % 256 := by simp [BitVec.toNat_add]; omega
  rw [State.wordZP, leWord_toNat]
  simp only [State.read, wordZPAt, e1, e2, BitVec.toNat_ofNat]
  omega

/-- A 16-bit pointer wraps at the top of memory. -/
theorem State.word16_eq (s : State) (p : Addr) : s.word16 p = BitVec.ofNat 16 (word16At s.mem p.toNat) := by
  apply BitVec.eq_of_toNat_eq
  have h1 := (s.mem.get (p.toNat % 65536)).isLt
  have h2 := (s.mem.get ((p.toNat + 1) % 65536)).isLt
  have hp := p.isLt
  have e1 : p.toNat = p.toNat % 65536 := by omega
  have e2 : (p + 1).toNat = (p.toNat + 1) % 65536 := by simp [BitVec.toNat_add]
  rw [State.word16, leWord_toNat]
  simp only [State.read, word16At, e2, BitVec.toNat_ofNat]
  rw [← e1]
  omega

theorem leWord_ofNat (lo hi : Byte) : leWord lo hi = BitVec.ofNat 16 (lo.toNat + 256 * hi.toNat) := by
  apply BitVec.eq_of_toNat_eq
  rw [leWord_toNat]
  have := lo.isLt
  have := hi.isLt
  simp
  omega

end Sys2Proof.Machine
end

