-- ==== Sys2Proof/Laws/PerInstr.lean ====
section
/-! SUPPORT. A statement made per instruction: an encoding is one opcode byte and the operand bytes its mode consumes
(30_encoding.md R80). One lemma per constructor. -/

namespace Sys2Proof.Laws.EncodingLength

open Sys2Proof

/-- The encoding of an instruction, where it has one, is `1 + n` bytes long (30_encoding.md R80, R103). -/
def Statement (i : Instr) : Prop := ∀ bytes, encode i = some bytes → bytes.length = 1 + i.count

/-- The shape all instructions but `unknown` share: an opcode byte from the table, then the operand bytes. -/
theorem of_table (i : Instr) (h : encode i = (opcodeOf i.op i.mode).map (fun op => op :: i.operandBytes))
    (hl : i.operandBytes.length = i.mode.count) : Statement i := by
  intro bytes he
  rw [h] at he
  obtain ⟨op, -, rfl⟩ := Option.map_eq_some_iff.mp he
  simp [Instr.count, hl, Nat.add_comm]

theorem lda (src : Src) : Statement (.lda src) := of_table _ rfl src.length_bytes
theorem ldx (src : Src) : Statement (.ldx src) := of_table _ rfl src.length_bytes
theorem ldy (src : Src) : Statement (.ldy src) := of_table _ rfl src.length_bytes
theorem sta (dst : MemOperand) : Statement (.sta dst) := of_table _ rfl dst.length_bytes
theorem stx (dst : MemOperand) : Statement (.stx dst) := of_table _ rfl dst.length_bytes
theorem sty (dst : MemOperand) : Statement (.sty dst) := of_table _ rfl dst.length_bytes
theorem tax : Statement .tax := of_table _ rfl rfl
theorem txa : Statement .txa := of_table _ rfl rfl
theorem inx : Statement .inx := of_table _ rfl rfl
theorem iny : Statement .iny := of_table _ rfl rfl
theorem dex : Statement .dex := of_table _ rfl rfl
theorem inc (m : MemOperand) : Statement (.inc m) := of_table _ rfl m.length_bytes
theorem dec (m : MemOperand) : Statement (.dec m) := of_table _ rfl m.length_bytes
theorem and (src : Src) : Statement (.and src) := of_table _ rfl src.length_bytes
theorem bit (m : MemOperand) : Statement (.bit m) := of_table _ rfl m.length_bytes
theorem lsrA : Statement .lsrA := of_table _ rfl rfl
theorem lsr (m : MemOperand) : Statement (.lsr m) := of_table _ rfl m.length_bytes
theorem adc (src : Src) : Statement (.adc src) := of_table _ rfl src.length_bytes
theorem sbc (src : Src) : Statement (.sbc src) := of_table _ rfl src.length_bytes
theorem cmp (src : Src) : Statement (.cmp src) := of_table _ rfl src.length_bytes
theorem cpx (src : Src) : Statement (.cpx src) := of_table _ rfl src.length_bytes
theorem cpy (src : Src) : Statement (.cpy src) := of_table _ rfl src.length_bytes
theorem bcc (d : Byte) : Statement (.bcc d) := of_table _ rfl rfl
theorem bcs (d : Byte) : Statement (.bcs d) := of_table _ rfl rfl
theorem beq (d : Byte) : Statement (.beq d) := of_table _ rfl rfl
theorem bne (d : Byte) : Statement (.bne d) := of_table _ rfl rfl
theorem bpl (d : Byte) : Statement (.bpl d) := of_table _ rfl rfl
theorem jmp (t : Addr) : Statement (.jmp t) := of_table _ rfl rfl
theorem jmpInd (ptr : Addr) : Statement (.jmpInd ptr) := of_table _ rfl rfl
theorem jsr (t : Addr) : Statement (.jsr t) := of_table _ rfl rfl
theorem rts : Statement .rts := of_table _ rfl rfl
theorem pha : Statement .pha := of_table _ rfl rfl
theorem pla : Statement .pla := of_table _ rfl rfl
theorem sec : Statement .sec := of_table _ rfl rfl
theorem clc : Statement .clc := of_table _ rfl rfl
theorem nop : Statement .nop := of_table _ rfl rfl
theorem brk : Statement .brk := of_table _ rfl rfl
theorem unknown (op : Byte) : Statement (.unknown op) := by
  intro bytes he
  simp only [encode] at he
  split at he
  · cases he; rfl
  · cases he

end Sys2Proof.Laws.EncodingLength
end

