-- ==== Sys2Proof/Laws/StackSeq.lean ====
section
/-! SUPPORT. Runs of pushes and of pops: where SP ends, which stack bytes are written, which are read. -/

namespace Sys2Proof.Machine

/-- A run of pops gives the stack bytes above SP in order, whatever the pop policy, for the first 256. -/
theorem State.popAll_spec (n : Nat) : ∀ t : State,
    (t.popAll n).1.length = n ∧ (t.popAll n).2.sp = t.sp + BitVec.ofNat 8 n ∧
    ∀ k, k < n → k < 256 → (t.popAll n).1[k]? = some (t.read (stackAddr (t.sp + 1 + BitVec.ofNat 8 k))) := by
  induction n with
  | zero => intro t; refine ⟨rfl, by simp [State.popAll], fun k h => absurd h (by omega)⟩
  | succ n ih =>
    intro t
    obtain ⟨h1, h2, h3⟩ := ih t.popState
    refine ⟨by simp [State.popAll, h1], ?_, ?_⟩
    · simp only [State.popAll, h2, State.popState_sp]
      apply BitVec.eq_of_toNat_eq; simp [BitVec.toNat_add]; omega
    · intro k hk hk'
      cases k with
      | zero => simp [State.popAll, State.popValue]
      | succ k =>
        simp only [State.popAll, List.getElem?_cons_succ]
        rw [h3 k (by omega) (by omega), State.popState_sp]
        have e : t.sp + 1 + 1 + BitVec.ofNat 8 k = t.sp + 1 + BitVec.ofNat 8 (k + 1) := by
          apply BitVec.eq_of_toNat_eq; simp [BitVec.toNat_add]; omega
        rw [e, State.read_popState, if_neg]
        rintro ⟨-, h⟩
        rw [stackAddr_inj] at h
        have := congrArg BitVec.toNat h
        simp [BitVec.toNat_add] at this
        have := t.sp.isLt
        omega

/-- A run of pushes lowers SP by its length. -/
theorem State.pushAll_sp (vs : List Byte) : ∀ s : State, (s.pushAll vs).sp = s.sp - BitVec.ofNat 8 vs.length := by
  induction vs with
  | nil => intro s; simp [State.pushAll]
  | cons v vs ih =>
    intro s
    rw [State.pushAll, ih]
    apply BitVec.eq_of_toNat_eq; simp [BitVec.toNat_sub, State.push]; omega

/-- A run of pushes leaves the stack bytes it does not reach. -/
theorem State.pushAll_read (vs : List Byte) : ∀ (s : State) (j : Nat), vs.length ≤ j → j < 256 →
    (s.pushAll vs).read (stackAddr (s.sp - BitVec.ofNat 8 j)) = s.read (stackAddr (s.sp - BitVec.ofNat 8 j)) := by
  induction vs with
  | nil => intro s j _ _; rfl
  | cons v vs ih =>
    intro s j hj hj'
    simp only [List.length_cons] at hj
    have e : s.sp - BitVec.ofNat 8 j = (s.push v).sp - BitVec.ofNat 8 (j - 1) := by
      apply BitVec.eq_of_toNat_eq; simp [BitVec.toNat_sub, State.push]; omega
    rw [State.pushAll, e, ih (s.push v) (j - 1) (by omega) (by omega), State.read_push, if_neg]
    rw [stackAddr_inj]
    intro h
    have := congrArg BitVec.toNat h
    simp [BitVec.toNat_sub, State.push] at this
    have := s.sp.isLt
    omega

/-- After a run of pushes the bytes above SP are the pushed ones, last first, for the first 256. -/
theorem State.pushAll_spec (vs : List Byte) : ∀ (s : State) (k : Nat), k < vs.length → k < 256 →
    some ((s.pushAll vs).read (stackAddr ((s.pushAll vs).sp + 1 + BitVec.ofNat 8 k))) = vs.reverse[k]? := by
  induction vs with
  | nil => intro s k h; exact absurd h (by simp)
  | cons v vs ih =>
    intro s k hk hk'
    simp only [List.length_cons] at hk
    rw [List.reverse_cons]
    by_cases h : k < vs.length
    · rw [List.getElem?_append_left (by simpa using h)]
      exact ih (s.push v) k h hk'
    · have hk : k = vs.length := by omega
      subst hk
      have e : (s.pushAll (v :: vs)).sp + 1 + BitVec.ofNat 8 vs.length = s.sp := by
        rw [State.pushAll_sp]
        apply BitVec.eq_of_toNat_eq; simp [BitVec.toNat_sub, BitVec.toNat_add]; have := s.sp.isLt; omega
      have e2 : s.sp = (s.push v).sp - BitVec.ofNat 8 255 := by
        have : ∀ q : Byte, q = q - 1 - 255#8 := by decide
        exact this s.sp
      rw [e, State.pushAll, e2, State.pushAll_read vs (s.push v) 255 (by omega) (by omega), ← e2, State.read_push]
      simp

end Sys2Proof.Machine
end

