-- ==== Sys2Proof/Tests/Slice0.lean ====
section
/-! SUPPORT. Tests of the model, each expected value from the text of spec/ (the vector's id, or the rule, stands in the
comment), and a witness for the hypotheses of every obligation that has some. -/

namespace Sys2Proof.Tests

open Sys2Proof Sys2Proof.Machine

/-! ### WellFormed: an ill-formed term for each check -/

/-- An operation in a mode its rule does not admit (the "Operands" lines of files 42 to 44), for each of the groups of
operand forms: loads, stores, read-modify-writes, BIT, LSR, compares. -/
theorem test_ill_formed_modes :
    WellFormed (.lda (.mem (.zpy 0x10))) = false ∧ WellFormed (.ldx (.mem (.zpx 0x10))) = false ∧
    WellFormed (.ldy (.mem (.indy 0x10))) = false ∧ WellFormed (.sta (.zpy 0x10)) = false ∧
    WellFormed (.stx (.zpx 0x10)) = false ∧ WellFormed (.sty (.absx 0x0200)) = false ∧
    WellFormed (.inc (.absy 0x0200)) = false ∧ WellFormed (.dec (.indx 0x10)) = false ∧
    WellFormed (.bit (.zpx 0x10)) = false ∧ WellFormed (.lsr (.zpy 0x10)) = false ∧
    WellFormed (.cpx (.mem (.zpx 0x10))) = false ∧ WellFormed (.cpy (.mem (.absx 0x0200))) = false := by decide

/-- An `unknown` that carries a populated byte (30_encoding.md R97, R101). -/
theorem test_ill_formed_unknown : WellFormed (.unknown 0xA9) = false ∧ WellFormed (.unknown 0x02) = true := by decide

/-- What is ill-formed has no encoding. -/
theorem test_ill_formed_has_no_encoding :
    encode (.lda (.mem (.zpy 0x10))) = none ∧ encode (.unknown 0xA9) = none := by decide

/-! ### Decoding: a word of each constructor, written out from 30_encoding.md R99 and R80 -/

theorem test_decode_lda : decode [0xB1, 0x20] = .ok (.lda (.mem (.indy 0x20)), []) := by decide
theorem test_decode_ldx : decode [0xB6, 0xFF] = .ok (.ldx (.mem (.zpy 0xFF)), []) := by decide
theorem test_decode_ldy : decode [0xBC, 0x34, 0x12] = .ok (.ldy (.mem (.absx 0x1234)), []) := by decide
theorem test_decode_sta : decode [0x81, 0x10] = .ok (.sta (.indx 0x10), []) := by decide
theorem test_decode_stx : decode [0x96, 0xFE] = .ok (.stx (.zpy 0xFE), []) := by decide
theorem test_decode_sty : decode [0x94, 0xFF] = .ok (.sty (.zpx 0xFF), []) := by decide
theorem test_decode_tax : decode [0xAA] = .ok (.tax, []) := by decide
theorem test_decode_txa : decode [0x8A] = .ok (.txa, []) := by decide
theorem test_decode_inx : decode [0xE8] = .ok (.inx, []) := by decide
theorem test_decode_iny : decode [0xC8] = .ok (.iny, []) := by decide
theorem test_decode_dex : decode [0xCA] = .ok (.dex, []) := by decide
theorem test_decode_inc : decode [0xFE, 0xFF, 0x02] = .ok (.inc (.absx 0x02FF), []) := by decide
theorem test_decode_dec : decode [0xCE, 0x00, 0x03] = .ok (.dec (.abs 0x0300), []) := by decide
theorem test_decode_and : decode [0x39, 0x00, 0x03] = .ok (.and (.mem (.absy 0x0300)), []) := by decide
theorem test_decode_bit : decode [0x2C, 0x00, 0x03] = .ok (.bit (.abs 0x0300), []) := by decide
theorem test_decode_lsrA : decode [0x4A] = .ok (.lsrA, []) := by decide
theorem test_decode_lsr : decode [0x46, 0x20] = .ok (.lsr (.zp 0x20), []) := by decide
theorem test_decode_adc : decode [0x69, 0x01] = .ok (.adc (.imm 0x01), []) := by decide
theorem test_decode_sbc : decode [0xFD, 0xF0, 0x02] = .ok (.sbc (.mem (.absx 0x02F0)), []) := by decide
theorem test_decode_cmp : decode [0xD1, 0x20] = .ok (.cmp (.mem (.indy 0x20)), []) := by decide
theorem test_decode_cpx : decode [0xE4, 0x10] = .ok (.cpx (.mem (.zp 0x10)), []) := by decide
theorem test_decode_cpy : decode [0xC0, 0x04] = .ok (.cpy (.imm 0x04), []) := by decide
theorem test_decode_bcc : decode [0x90, 0xF6] = .ok (.bcc 0xF6, []) := by decide
theorem test_decode_bcs : decode [0xB0, 0xF0] = .ok (.bcs 0xF0, []) := by decide
theorem test_decode_beq : decode [0xF0, 0x03] = .ok (.beq 0x03, []) := by decide
theorem test_decode_bne : decode [0xD0, 0xFA] = .ok (.bne 0xFA, []) := by decide
theorem test_decode_bpl : decode [0x10, 0x02] = .ok (.bpl 0x02, []) := by decide
theorem test_decode_jmp : decode [0x4C, 0x0B, 0x06] = .ok (.jmp 0x060B, []) := by decide
theorem test_decode_jmpInd : decode [0x6C, 0x40, 0x00] = .ok (.jmpInd 0x0040, []) := by decide
theorem test_decode_jsr : decode [0x20, 0x09, 0x06] = .ok (.jsr 0x0609, []) := by decide
theorem test_decode_rts : decode [0x60] = .ok (.rts, []) := by decide
theorem test_decode_pha : decode [0x48] = .ok (.pha, []) := by decide
theorem test_decode_pla : decode [0x68] = .ok (.pla, []) := by decide
theorem test_decode_sec : decode [0x38] = .ok (.sec, []) := by decide
theorem test_decode_clc : decode [0x18] = .ok (.clc, []) := by decide
theorem test_decode_nop : decode [0xEA] = .ok (.nop, []) := by decide
theorem test_decode_brk : decode [0x00] = .ok (.brk, []) := by decide
theorem test_decode_unknown : decode [0xFF] = .ok (.unknown 0xFF, []) := by decide

/-- Only the bytes the mode consumes are taken (30_encoding.md R80). -/
theorem test_decode_leaves_the_rest : decode [0xEA, 0xA9, 0x05] = .ok (.nop, [0xA9, 0x05]) := by decide

/-- The only refusals: no opcode byte, or an operand byte missing. -/
theorem test_decode_refuses :
    decode [] = .error .noOpcodeByte ∧ decode [0xA9] = .error (.missingOperandByte 0xA9) ∧
    decode [0xAD, 0x00] = .error (.missingOperandByte 0xAD) := by decide

/-- The bits of an opcode-table word count on from the first byte. -/
theorem test_decodeTableWord :
    decodeTableWord 24 0x060920 = some (.jsr 0x0609) ∧ decodeTableWord 8 0xA9 = some (.lda (.imm 0x00)) ∧
    decodeTableWord 16 0x05A9 = some (.lda (.imm 0x05)) := by decide

/-! ### One tick on a small state: the vectors of 95_test_vectors.md -/

/-- From reset: every register 0 and `P = 0x20`, at `0x0600`. -/
def quiet : State := State.reset

/-- Reset with the two policy parameters chosen. -/
def withPolicy (clear bias : Bool) : State :=
  { quiet with cfg := { quiet.cfg with clearOnPop := clear, branchFwdBias := bias } }

/-- The state after one step on the bytes at PC, running. -/
def tickOn (s : State) (bytes : List Byte) : Option State :=
  match step (s.withBytes bytes) with
  | .next t => some t
  | .fault _ => none
  | .refused _ => none

/-- The state after one instruction. -/
def execOn (i : Instr) (s : State) : State :=
  match exec i s with
  | .next t => t
  | .fault _ => s
  | .refused _ => s

/-- LS1: Z set. -/
theorem test_lda_zero :
    (tickOn { quiet with a := 0x55 } [0xA9, 0x00]).map (fun t => (t.a, t.p)) = some (0x00, 0x22) := by decide

/-- AM7: the pointer's high byte comes from `0x0000`. -/
theorem test_lda_indx_pointer_wraps :
    (tickOn
      { quiet with x := 0x01, mem := [(0x0000, 0x12), (0x00FF, 0x34), (0x0100, 0x55), (0x1234, 0x99)] } [0xA1, 0xFE]).map
      (fun t => (t.a, t.p, t.pc)) =
      some (0x99, 0xA0, 0x0602) := by
  decide

/-- AM2. -/
theorem test_ldx_zpy_wraps :
    (tickOn { quiet with y := 0x02, mem := [(0x0001, 0x81)] } [0xB6, 0xFF]).map (fun t => (t.x, t.p)) =
      some (0x81, 0xA0) := by
  decide

/-- LS3. -/
theorem test_ldx_negative :
    (tickOn quiet [0xA2, 0xFF]).map (fun t => (t.x, t.p)) = some (0xFF, 0xA0) := by decide

/-- LS4. -/
theorem test_ldy_zp :
    (tickOn { quiet with mem := [(0x0010, 0x80)] } [0xA4, 0x10]).map (fun t => (t.y, t.p)) = some (0x80, 0xA0) := by
  decide

/-- LS5: Z set, N cleared, C kept. -/
theorem test_ldy_keeps_carry :
    (tickOn { quiet with p := 0xA1 } [0xA0, 0x00]).map (fun t => (t.y, t.p)) = some (0x00, 0x23) := by decide

/-- LS6: no flag. -/
theorem test_sta_abs :
    (tickOn { quiet with a := 0x42, p := 0xE3 } [0x8D, 0x00, 0x02]).map (fun t => (t.read 0x0200, t.p, t.pc)) =
      some (0x42, 0xE3, 0x0603) := by
  decide

/-- LS7. -/
theorem test_sta_indy :
    (tickOn { quiet with a := 0xAB, y := 0x03, mem := [(0x0021, 0x02)] } [0x91, 0x20]).map
      (fun t => (t.read 0x0203, t.pc)) =
      some (0xAB, 0x0602) := by
  decide

/-- LS8. -/
theorem test_stx_zpy_wraps :
    (tickOn { quiet with x := 0x05, y := 0x03 } [0x96, 0xFE]).map (fun t => (t.read 0x0001, t.p)) =
      some (0x05, 0x20) := by
  decide

/-- LS9. -/
theorem test_sty_zpx_wraps :
    (tickOn { quiet with y := 0x09, x := 0x01 } [0x94, 0xFF]).map (fun t => (t.read 0x0000, t.p)) =
      some (0x09, 0x20) := by
  decide

/-- LS10. -/
theorem test_tax :
    (tickOn { quiet with a := 0x90 } [0xAA]).map (fun t => (t.x, t.p)) = some (0x90, 0xA0) := by decide

/-- LS12. -/
theorem test_txa :
    (tickOn { quiet with a := 0x55 } [0x8A]).map (fun t => (t.a, t.p)) = some (0x00, 0x22) := by decide

/-- ID1: C kept. -/
theorem test_inx_wraps :
    (tickOn { quiet with x := 0xFF, p := 0x21 } [0xE8]).map (fun t => (t.x, t.p)) = some (0x00, 0x23) := by decide

/-- ID2: V kept. -/
theorem test_inx_keeps_overflow :
    (tickOn { quiet with x := 0x7F, p := 0x60 } [0xE8]).map (fun t => (t.x, t.p)) = some (0x80, 0xE0) := by decide

/-- ID3. -/
theorem test_iny_wraps :
    (tickOn { quiet with y := 0xFF } [0xC8]).map (fun t => (t.y, t.p)) = some (0x00, 0x22) := by decide

/-- ID4. -/
theorem test_dex_wraps :
    (tickOn quiet [0xCA]).map (fun t => (t.x, t.p)) = some (0xFF, 0xA0) := by decide

/-- ID6. -/
theorem test_inc_zp :
    (tickOn { quiet with mem := [(0x0010, 0x7F)] } [0xE6, 0x10]).map (fun t => (t.read 0x0010, t.p)) =
      some (0x80, 0xA0) := by
  decide

/-- ID7. -/
theorem test_inc_absx_to_zero :
    (tickOn { quiet with x := 0x01, mem := [(0x0300, 0xFF)] } [0xFE, 0xFF, 0x02]).map
      (fun t => (t.read 0x0300, t.p)) =
      some (0x00, 0x22) := by
  decide

/-- ID8. -/
theorem test_dec_zpx_wraps :
    (tickOn { quiet with x := 0x80 } [0xD6, 0x80]).map (fun t => (t.read 0x0000, t.p)) = some (0xFF, 0xA0) := by
  decide

/-- ID9. -/
theorem test_dec_abs :
    (tickOn { quiet with mem := [(0x0300, 0x01)] } [0xCE, 0x00, 0x03]).map (fun t => (t.read 0x0300, t.p)) =
      some (0x00, 0x22) := by
  decide

/-- LG1. -/
theorem test_and_masks :
    (tickOn { quiet with a := 0xF0 } [0x29, 0x3C]).map (fun t => (t.a, t.p)) = some (0x30, 0x20) := by decide

/-- LG3. -/
theorem test_and_negative :
    (tickOn { quiet with a := 0x80 } [0x29, 0xFF]).map (fun t => (t.a, t.p)) = some (0x80, 0xA0) := by decide

/-- LG4. -/
theorem test_bit_overflow :
    (tickOn { quiet with a := 0x01, mem := [(0x0040, 0x41)] } [0x24, 0x40]).map (fun t => (t.a, t.p)) =
      some (0x01, 0x60) := by
  decide

/-- LG5. -/
theorem test_bit_all_three :
    (tickOn { quiet with mem := [(0x0300, 0xC0)] } [0x2C, 0x00, 0x03]).map (fun t => (t.p, t.pc)) =
      some (0xE2, 0x0603) := by
  decide

/-- SH1. -/
theorem test_lsrA :
    (tickOn { quiet with a := 0x81 } [0x4A]).map (fun t => (t.a, t.p)) = some (0x40, 0x21) := by decide

/-- SH2. -/
theorem test_lsrA_clears_carry :
    (tickOn { quiet with p := 0x21 } [0x4A]).map (fun t => (t.a, t.p)) = some (0x00, 0x22) := by decide

/-- SH3. -/
theorem test_lsr_to_zero :
    (tickOn { quiet with mem := [(0x0020, 0x01)] } [0x46, 0x20]).map (fun t => (t.read 0x0020, t.p)) =
      some (0x00, 0x23) := by
  decide

/-- SH4. -/
theorem test_lsr_no_carry :
    (tickOn { quiet with mem := [(0x0020, 0x02)] } [0x46, 0x20]).map (fun t => (t.read 0x0020, t.p)) =
      some (0x01, 0x20) := by
  decide

/-- AR1, and W2. -/
theorem test_adc_overflow :
    (tickOn { quiet with a := 0x7F } [0x69, 0x01]).map (fun t => (t.a, t.p)) = some (0x80, 0xE0) := by decide

/-- AR5. -/
theorem test_adc_carry_in :
    (tickOn { quiet with a := 0x01, p := 0x21, mem := [(0x0300, 0x01)] } [0x6D, 0x00, 0x03]).map
      (fun t => (t.a, t.p)) =
      some (0x03, 0x20) := by
  decide

/-- AR8. -/
theorem test_sbc_borrow_in :
    (tickOn { quiet with a := 0x05 } [0xE9, 0x03]).map (fun t => (t.a, t.p)) = some (0x01, 0x21) := by decide

/-- AR12. -/
theorem test_sbc_overflow :
    (tickOn { quiet with a := 0x50, p := 0x21 } [0xE9, 0xB0]).map (fun t => (t.a, t.p)) = some (0xA0, 0xE0) := by
  decide

/-- CP1. -/
theorem test_cmp_less :
    (tickOn { quiet with a := 0x10 } [0xC9, 0x20]).map (fun t => (t.a, t.p)) = some (0x10, 0xA0) := by decide

/-- CP3. -/
theorem test_cmp_keeps_overflow :
    (tickOn { quiet with a := 0x80, p := 0x60 } [0xC9, 0x01]).map (fun t => t.p) = some 0x61 := by decide

/-- CP4. -/
theorem test_cpx_equal :
    (tickOn { quiet with x := 0x05 } [0xE0, 0x05]).map (fun t => t.p) = some 0x23 := by decide

/-- CP5. -/
theorem test_cpx_less :
    (tickOn { quiet with x := 0x10, mem := [(0x0010, 0x20)] } [0xE4, 0x10]).map (fun t => t.p) = some 0xA0 := by
  decide

/-- CP6. -/
theorem test_cpy_greater :
    (tickOn { quiet with y := 0xFF } [0xC0, 0x00]).map (fun t => t.p) = some 0xA1 := by decide

/-- CP7. -/
theorem test_cpy_abs :
    (tickOn { quiet with y := 0x80, mem := [(0x0300, 0x7F)] } [0xCC, 0x00, 0x03]).map (fun t => t.p) = some 0x21 := by
  decide

/-- CT1. -/
theorem test_bcc_taken :
    (tickOn quiet [0x90, 0x04]).map (fun t => (t.pc, t.p)) = some (0x0606, 0x20) := by decide

/-- CT3. -/
theorem test_bcc_to_itself :
    (tickOn quiet [0x90, 0xFE]).map (fun t => t.pc) = some 0x0600 := by decide

/-- CT4. -/
theorem test_bcs_backward :
    (tickOn { quiet with pc := 0x0610, p := 0x21 } [0xB0, 0xF0]).map (fun t => t.pc) = some 0x0602 := by decide

/-- CT12. -/
theorem test_bcs_wraps_up :
    (tickOn { quiet with pc := 0xFFF0, p := 0x21 } [0xB0, 0x10]).map (fun t => t.pc) = some 0x0002 := by decide

/-- CT5. -/
theorem test_beq_not_taken :
    (tickOn quiet [0xF0, 0x10]).map (fun t => t.pc) = some 0x0602 := by decide

/-- CT11. -/
theorem test_beq_wraps_down :
    (tickOn { quiet with pc := 0x0010, p := 0x22 } [0xF0, 0x80]).map (fun t => t.pc) = some 0xFF92 := by decide

/-- CT9: the forward bias. -/
theorem test_bne_bias_forward :
    (tickOn (withPolicy false true) [0xD0, 0x7F]).map (fun t => t.pc) = some 0x0682 := by decide

/-- CT10: none on a negative displacement. -/
theorem test_bne_bias_backward :
    (tickOn (withPolicy false true) [0xD0, 0xFA]).map (fun t => t.pc) = some 0x05FC := by decide

/-- CT13. -/
theorem test_bpl_taken :
    (tickOn quiet [0x10, 0x02]).map (fun t => t.pc) = some 0x0604 := by decide

/-- CT14. -/
theorem test_bpl_not_taken :
    (tickOn { quiet with p := 0xA0 } [0x10, 0x10]).map (fun t => t.pc) = some 0x0602 := by decide

/-- CT15. -/
theorem test_jmp :
    (tickOn quiet [0x4C, 0x00, 0x07]).map (fun t => (t.pc, t.p)) = some (0x0700, 0x20) := by decide

/-- AM11: no page wrap. -/
theorem test_jmpInd_page_end :
    (tickOn { quiet with mem := [(0x1200, 0x09), (0x12FF, 0x00), (0x1300, 0x07)] } [0x6C, 0xFF, 0x12]).map
      (fun t => t.pc) =
      some 0x0700 := by
  decide

/-- AM12: the high byte comes from `0x0000`. -/
theorem test_jmpInd_top :
    (tickOn { quiet with mem := [(0x0000, 0x08)] } [0x6C, 0xFF, 0xFF]).map (fun t => t.pc) = some 0x0800 := by decide

/-- CT17. -/
theorem test_jsr :
    (tickOn { quiet with sp := 0x01 } [0x20, 0x00, 0x07]).map (fun t => (t.sp, t.pc, t.read 0x0101, t.read 0x0100)) =
      some (0xFF, 0x0700, 0x06, 0x02) := by
  decide

/-- CT18. -/
theorem test_rts_wraps :
    (tickOn { quiet with sp := 0xFD, mem := [(0x01FE, 0xFF), (0x01FF, 0xFF)] } [0x60]).map (fun t => (t.sp, t.pc)) =
      some (0xFF, 0x0000) := by
  decide

/-- CT19. -/
theorem test_rts_clears :
    (tickOn { withPolicy true false with sp := 0xFE, mem := [(0x0100, 0x06), (0x01FF, 0x02)] } [0x60]).map
      (fun t => (t.pc, t.sp, t.read 0x01FF, t.read 0x0100)) =
      some (0x0603, 0x00, 0x00, 0x00) := by
  decide

/-- SF1. -/
theorem test_pha :
    (tickOn { quiet with a := 0x7E } [0x48]).map (fun t => (t.sp, t.read 0x0100)) = some (0xFF, 0x7E) := by decide

/-- SF3. -/
theorem test_pla_zero :
    (tickOn { quiet with sp := 0xFE, a := 0x11 } [0x68]).map (fun t => (t.a, t.sp, t.p)) =
      some (0x00, 0xFF, 0x22) := by
  decide

/-- SF4 under `CLEAR_ON_POP`. -/
theorem test_pla_clears :
    (tickOn { withPolicy true false with sp := 0xFF, mem := [(0x0100, 0x80)] } [0x68]).map
      (fun t => (t.a, t.p, t.read 0x0100)) =
      some (0x80, 0xA0, 0x00) := by
  decide

/-- SF5. -/
theorem test_sec :
    (tickOn quiet [0x38]).map (fun t => t.p) = some 0x21 := by decide

/-- SF6. -/
theorem test_clc :
    (tickOn { quiet with p := 0x21 } [0x18]).map (fun t => t.p) = some 0x20 := by decide

/-- SF7. -/
theorem test_nop :
    (tickOn quiet [0xEA]).map (fun t => (t.pc, t.p)) = some (0x0601, 0x20) := by decide

/-- AM14. -/
theorem test_nop_wraps :
    (tickOn { quiet with pc := 0xFFFF } [0xEA]).map (fun t => t.pc) = some 0x0000 := by decide

/-- SF8. -/
theorem test_brk :
    (tickOn quiet [0x00]).map (fun t => (t.sp, t.p, t.pc, t.read 0x0100, t.read 0x01FE, t.status)) =
      some (0xFD, 0x30, 0x0601, 0x06, 0x20, .breakpointed) := by
  decide

/-- SF9: the pushed B is 0. -/
theorem test_brk_pushes_old_flags :
    (tickOn { quiet with sp := 0x01, p := 0xE3 } [0x00]).map (fun t => (t.p, t.read 0x0101, t.read 0x01FF)) =
      some (0xF3, 0x06, 0xE3) := by
  decide

/-- SF10. -/
theorem test_unknown :
    (tickOn quiet [0x02]).map (fun t => (t.pc, t.diags)) = some (0x0601, [.unknownOpcode 0x02 0x0600]) := by decide

/-! ### The status machine and the host (95_test_vectors.md section 2.8) -/

/-- A machine with an image loaded at `0x0600` and host events to come. -/
def loaded (image : List Byte) (events : List HostEvent) : State :=
  { State.ofConfig (imageConfig image) with pending := events }

/-- The state after one step. -/
def stepped (s : State) : State :=
  match step s with
  | .next t => t
  | .fault _ => s
  | .refused _ => s

/-- W1: start, then the one tick of `LDA #$05`, which ends Halted. -/
theorem test_W1 :
    (stepped (loaded [0xA9, 0x05] [.start])).status = .running ∧
    (let t := stepped (stepped (loaded [0xA9, 0x05] [.start, .tick]))
     (t.a, t.p, t.pc, t.status, t.diags)) = (0x05, 0x20, 0x0602, .halted, [.endOfProgram 0x0602]) := by decide

/-- ST1, ST2: an empty image and a truncated one halt at start. -/
theorem test_start_halts :
    (let t := stepped (loaded [] [.start]); (t.status, t.pc, t.diags)) =
      (.halted, 0x0600, [.endOfProgram 0x0600]) ∧
    (let t := stepped (loaded [0xA9] [.start]); (t.status, t.a, t.diags)) =
      (.halted, 0x00, [.endOfProgram 0x0600]) := by decide

/-- ST5: resume at the end of the program clears B and halts. -/
theorem test_resume_halts :
    (let t := stepped { loaded [0xEA, 0x00] [.resume] with pc := 0x0602, p := 0x30, status := .breakpointed }
     (t.p, t.status, t.diags)) = (0x20, .halted, [.endOfProgram 0x0602]) := by decide

/-- P2's continuation: a resume below the end runs on. -/
theorem test_resume_runs :
    (let t := stepped { loaded [0x00, 0x18] [.resume] with pc := 0x0601, p := 0x30, status := .breakpointed }
     (t.p, t.status, t.diags)) = (0x20, .running, []) := by decide

/-- ST6, ST8, ST9: events that change nothing. -/
theorem test_events_without_effect :
    hostEvent .tick State.reset = .next State.reset ∧
    hostEvent .start (State.reset.withBytes [0xEA]) = .next (State.reset.withBytes [0xEA]) ∧
    hostEvent .resume (State.reset.withBytes [0xEA]) = .next (State.reset.withBytes [0xEA]) := by
  and_intros <;> rfl

/-- 60_exceptions.md R301 at the edges of the address space. -/
theorem test_port_edges :
    portRead [] (-1) = .error (.addressError (-1)) ∧ portRead [(0x0000, 0x07)] 0 = .ok 0x07 ∧
    portWrite [] 65535 0x01 = .ok [(0xFFFF, 0x01)] ∧ portWrite [] 65536 0x01 = .error (.addressError 65536) := by
  decide

/-- 70_reset_and_hazards.md R344: an image that ends at the top of memory fits, one byte more does not. -/
theorem test_launch_edges :
    launchFits { Config.default with progBase := 0xFFFF, image := [0xEA], progEnd := 0x10000 } = true ∧
    launchFits { Config.default with progBase := 0xFFFF, image := [0xEA, 0xEA] } = false ∧
    launchFits { Config.default with progEnd := 0x10001 } = false := by decide

/-- 00_scope.md R8: the defaults that follow `PROG_BASE` and `IMAGE`, at a base that is not `0x0600` and at the top of
memory, where `PROG_END` is `0x10000`. -/
theorem test_defaults_follow_the_base :
    (let c := defaultsFor 0x0200 [0xA9, 0x05]
     (c.progBase, c.progEnd, c.initMem)) = (0x0200, 0x0202, [(0x0200, 0xA9), (0x0201, 0x05)]) ∧
    (let c := defaultsFor 0xFFFF [0xEA]
     (c.progEnd, c.initMem, launchFits c)) = (0x10000, [(0xFFFF, 0xEA)], true) := by decide

/-- The loader writes the image from `PROG_BASE` upward (60_exceptions.md R330). -/
theorem test_load :
    (stepped { State.reset with pending := [.load], cfg := { Config.default with image := [0xA9, 0x05] } }).mem =
      [(0x0600, 0xA9), (0x0601, 0x05)] := by decide

/-- A word placed where the next step fetches is what that step runs. -/
theorem test_withFetchWord :
    step (State.reset.withFetchWord 16 0x05A9) =
      .next { State.reset.withFetchWord 16 0x05A9 with a := 0x05, pc := 0x0602 } := by rfl

/-- Reset memory is canonical, and a write of `0x00` takes an entry away. -/
theorem test_memory_canonical :
    State.reset.mem.wf ∧ ((State.reset.write 0x0200 0x05).write 0x0200 0x00).mem = [] := by decide

/-! ### Witnesses: the hypotheses of each obligation, met together -/

/-- DecodeOfEncodeIsTheInstruction, for each shape of operand. -/
theorem test_witness_wellFormed :
    WellFormed (.lda (.imm 0xFF)) = true ∧ WellFormed (.sta (.indy 0xFF)) = true ∧ WellFormed .lsrA = true ∧
    WellFormed (.jmpInd 0xFFFF) = true ∧ WellFormed (.bne 0x80) = true ∧ WellFormed (.unknown 0xFF) = true := by
  decide

/-- DecodedBytesAreTheEncoding and LengthComesFromTheOpcodeByte, for each length. -/
theorem test_witness_decoded :
    decode [0xEA, 0x01] = .ok (.nop, [0x01]) ∧ decode [0xA9, 0xFF, 0x01] = .ok (.lda (.imm 0xFF), [0x01]) ∧
    decode [0x4C, 0xFF, 0xFF, 0x01] = .ok (.jmp 0xFFFF, [0x01]) := by decide

/-- UnlistedBytesAreUnknown and UnknownIsANoOpWithADiagnostic, both sides. -/
theorem test_witness_unpopulated : populated 0x02 = false ∧ populated 0xFF = false ∧ populated 0x00 = true := by
  decide

/-- PopulatedEntriesPairAsTheSpecSays: a row for each clause. -/
theorem test_witness_rows :
    (⟨0xA9, .imm, .lda⟩ : Row) ∈ rows ∧ (⟨0x91, .indy, .sta⟩ : Row) ∈ rows ∧
    (⟨0x4A, .acc, .lsr⟩ : Row) ∈ rows ∧
    (⟨0x10, .rel, .bpl⟩ : Row) ∈ rows ∧ (⟨0x6C, .ind, .jmp⟩ : Row) ∈ rows ∧
    (⟨0x20, .abs, .jsr⟩ : Row) ∈ rows ∧
    (⟨0x00, .imp, .brk⟩ : Row) ∈ rows := by decide

/-- DirectModesGiveTheirOperand and OperandsResolveAsTheModeTableSays: an opcode byte of each mode. -/
theorem test_witness_modes :
    ([0xEA, 0x4A, 0xA9, 0xA5, 0xB5, 0xB6, 0x90, 0xAD, 0xBD, 0xB9, 0x6C, 0xA1, 0xB1] : List Byte).map
      (fun b => (dispatch b).1) =
    [.imp, .acc, .imm, .zp, .zpx, .zpy, .rel, .abs, .absx, .absy, .ind, .indx, .indy] := by decide

/-- DecodingFailsOnlyForMissingBytes, both sides of the count. -/
theorem test_witness_operandCount :
    operandCount 0xEA = 0 ∧ operandCount 0xA9 = 1 ∧ operandCount 0xAD = 2 := by decide

/-- RtsReturnsPastThePoppedWord and PlaPullsTheAccumulator, both policies. -/
theorem test_witness_policy :
    (withPolicy true false).cfg.clearOnPop = true ∧ (withPolicy false false).cfg.clearOnPop = false := by decide

/-- BranchesGoToTheirTarget: a condition that holds and one that does not, for both values of each flag read. -/
theorem test_witness_branches :
    quiet.flag .c = false ∧ { quiet with p := 0x21 }.flag .c = true ∧ quiet.flag .z = false ∧
    { quiet with p := 0x22 }.flag .z = true ∧ quiet.flag .n = false ∧ { quiet with p := 0xA0 }.flag .n = true := by
  decide

/-- RtsUndoesJsr: a JSR, and the RTS's state just after it. -/
theorem test_witness_jsr_rts :
    exec (.jsr 0x0610) quiet = .next (execOn (.jsr 0x0610) quiet) ∧
    (execOn (.jsr 0x0610) quiet).sp = 0xFE := by and_intros <;> rfl

/-- SbcUndoesAdc: a sum that carries. -/
theorem test_witness_adc_sec_sbc :
    { quiet with a := 0xF0 }.flag .c = false ∧
    exec (.adc (.imm 0x20)) { quiet with a := 0xF0 } = .next (execOn (.adc (.imm 0x20)) { quiet with a := 0xF0 }) ∧
    exec .sec (execOn (.adc (.imm 0x20)) { quiet with a := 0xF0 }) =
      .next (execOn .sec (execOn (.adc (.imm 0x20)) { quiet with a := 0xF0 })) := by
  and_intros <;> rfl

/-- AWriteChangesOneByte: two addresses. PopsReverseThePushes: a list at the bound. -/
theorem test_witness_memory : (0x0000 : Addr) ≠ 0xFFFF ∧ (List.replicate 256 (0x5A : Byte)).length ≤ 256 :=
  ⟨by decide, by rw [List.length_replicate]⟩

/-- OnlyTheListedInstructionsWriteARegister and ReadARegister: an instruction for each register, that reads or writes
another; and one that writes a register it does not read. -/
theorem test_witness_registers :
    Reg.a.writtenBy (.cmp (.imm 0x01)) = false ∧ Reg.x.writtenBy (.stx (.zp 0x10)) = false ∧
    Reg.y.writtenBy (.lda (.mem (.indy 0x10))) = false ∧ Reg.sp.writtenBy .nop = false ∧
    Reg.a.readBy .pla = false ∧ Reg.a.writtenBy .pla = true ∧ Reg.x.readBy (.lda (.mem (.indy 0x10))) = false ∧
    Reg.y.readBy (.lda (.mem (.indx 0x10))) = false ∧ Reg.sp.readBy (.jmp 0x0600) = false ∧
    exec (.cmp (.imm 0x01)) quiet = .next (execOn (.cmp (.imm 0x01)) quiet) := by and_intros <;> rfl

/-- OnlyTheStackInstructionsUseSp: an instruction that is none of the five. -/
theorem test_witness_not_stack : Instr.nop ∉ [Instr.rts, .pha, .pla, .brk] ∧ ∀ w, Instr.nop ≠ .jsr w := by
  refine ⟨by decide, fun w h => by cases h⟩

/-- OnlyTheListedInstructionsWriteAFlag: each flag under an instruction that does not write it, and a BRK. -/
theorem test_witness_flags :
    Flag.c.writtenBy .inx = false ∧ Flag.z.writtenBy .sec = false ∧ Flag.i.writtenBy .brk = false ∧
    Flag.d.writtenBy (.adc (.imm 0x01)) = false ∧ Flag.b.writtenBy .pla = false ∧ Flag.v.writtenBy .lsrA = false ∧
    Flag.n.writtenBy .clc = false ∧ exec .brk quiet = .next (execOn .brk quiet) := by
  and_intros <;> rfl

/-- InterruptDecimalAndOverflowSteerNothing: each of the three, and an instruction that is not BRK. -/
theorem test_witness_idle_flags :
    Flag.i ∈ [Flag.i, .d, .v] ∧ Flag.d ∈ [Flag.i, .d, .v] ∧ Flag.v ∈ [Flag.i, .d, .v] ∧ Instr.pha ≠ .brk := by decide

/-- OnlyTheListedInstructionsWriteMemory, under both policies. -/
theorem test_witness_not_writing :
    writesMemory true .lsrA = false ∧ writesMemory false .rts = false ∧ writesMemory false .pla = false ∧
    exec .lsrA quiet = .next (execOn .lsrA quiet) := by and_intros <;> rfl

/-- SequentialInstructionsAdvancePastThemselves: branches not taken, and an instruction of each length. -/
theorem test_witness_sequential :
    transfers (.bcs 0x10) quiet = false ∧ transfers (.beq 0x10) quiet = false ∧
    transfers (.bcc 0x10) { quiet with p := 0x21 } = false ∧
    transfers (.bne 0x10) { quiet with p := 0x22 } = false ∧
    transfers (.bpl 0x10) { quiet with p := 0xA0 } = false ∧ transfers .nop quiet = false ∧
    transfers (.unknown 0x02) quiet = false ∧ transfers (.lda (.mem (.abs 0xFFFF))) quiet = false := by decide

/-- StepRunsTheDecodedInstruction: a BRK, an instruction that runs on, and the last one of a program. -/
theorem test_witness_step :
    (let s := quiet.withBytes [0x00]
     s.status = .running ∧ s.pending = [] ∧
       decode [s.read s.pc, s.read (s.pc + 1), s.read (s.pc + 2)] = .ok (.brk, [0x00, 0x00])) ∧
    (let s := quiet.withBytes [0xA9, 0x05]
     s.status = .running ∧ s.pending = [] ∧
       decode [s.read s.pc, s.read (s.pc + 1), s.read (s.pc + 2)] = .ok (.lda (.imm 0x05), [0x00])) ∧
    (let s := { loaded [0xEA] [] with status := .running }
     s.pending = [] ∧ decode [s.read s.pc, s.read (s.pc + 1), s.read (s.pc + 2)] = .ok (.nop, [0x00, 0x00]) ∧
       (stepped s).status = .halted) := by decide

/-- TicksOutsideRunningDoNothing and HaltingIsTerminal: a Halted state, and events that reach one. -/
theorem test_witness_halting :
    State.reset.status ≠ .running ∧ { quiet with status := .halted }.status = .halted ∧
    hostEvent .start (loaded [] []) = .next (stepped (loaded [] [.start])) ∧
    (loaded [] []).status ≠ .halted ∧ (stepped (loaded [] [.start])).status = .halted := by
  and_intros <;> first | rfl | decide

/-- BrkAloneBreakpoints: a Running state with B clear, at a BRK and at another instruction. -/
theorem test_witness_brk :
    (let s := quiet.withBytes [0x00]
     s.status = .running ∧ s.flag .b = false ∧ s.instrAt s.pc = .brk) ∧
    (let s := quiet.withBytes [0xEA]
     s.status = .running ∧ s.flag .b = false ∧ s.instrAt s.pc = .nop) := by decide

/-- StatusFollowsTheStateDiagram: a transition of each row. -/
theorem test_witness_diagram :
    (stepped (loaded [0xEA] [.start])).status = .running ∧ (stepped (loaded [] [.start])).status = .halted ∧
    (stepped (quiet.withBytes [0xEA])).status = .running ∧
    (stepped (quiet.withBytes [0x00])).status = .breakpointed ∧
    (stepped { quiet.withBytes [0xEA] with pending := [.reset] }).status = .idle ∧
    (stepped { quiet with status := .halted, pending := [.resume] }).status = .halted := by decide

/-- StartAndResumeWriteOnlyTheStatusAndB: a state for each clause. -/
theorem test_witness_start_resume :
    (quiet.withBytes [0xEA]).status ≠ .idle ∧ quiet.status ≠ .breakpointed ∧ quiet.status = .idle ∧
    (stepped (quiet.withBytes [0x00])).status = .breakpointed := by decide

/-- StepsDeliverEventsAndKeepTheParameters: a step on an empty queue, and one on a queue of two. -/
theorem test_witness_queue :
    step State.reset = .next (stepped State.reset) ∧
    step (loaded [0xEA] [.start, .tick]) = .next (stepped (loaded [0xEA] [.start, .tick])) ∧
    (stepped (loaded [0xEA] [.start, .tick])).pending = [.tick] := by and_intros <;> rfl

/-- EveryStepAnswers and LoadPlacesTheImage: parameters at the edge, and two sets just past it. -/
theorem test_witness_launch :
    (let c : Config := { Config.default with progBase := 0xFFFE, image := [0xEA, 0xEA], progEnd := 0x10000 }
     c.progBase.toNat + c.image.length ≤ 0x10000 ∧ c.progEnd ≤ 0x10000 ∧ (State.ofConfig c).status = .idle) ∧
    (let c : Config := { Config.default with progBase := 0xFFFF, image := [0xEA, 0xEA] }
     ¬ (c.progBase.toNat + c.image.length ≤ 0x10000)) ∧
    ¬ ({ Config.default with progEnd := 0x10001 }.progEnd ≤ 0x10000) := by decide

/-- EveryStepKeepsTheInvariant: a Running machine with an instruction to run, and its step. -/
theorem test_witness_invariant :
    (loaded [0xA9, 0x05, 0xEA] [.start]).Inv ∧ (stepped (loaded [0xA9, 0x05, 0xEA] [.start])).Inv ∧
    step (stepped (loaded [0xA9, 0x05, 0xEA] [.start])) =
      .next (stepped (stepped (loaded [0xA9, 0x05, 0xEA] [.start]))) := by
  refine ⟨⟨by decide, by decide, by decide, by decide, by decide, by decide, by decide⟩,
    ⟨by decide, by decide, by decide, by decide, by decide, by decide, by decide⟩, rfl⟩

end Sys2Proof.Tests
end

section
/-! Proofs on memory and the stack (20_memory.md): a write through the block's own port, the port for callers outside
the block, and Push. -/

namespace Sys2Proof.Machine

/-! ### A write of the block -/

/-- Writing the same byte again changes nothing, the held list included (`Memory.set_set`). -/
@[simp] theorem State.write_write_self (s : State) (q : Addr) (v : Byte) :
    (s.write q v).write q v = s.write q v := by
  simp [State.write, Memory.set_set]

/-- Memory is the only field a write changes. -/
theorem State.write_restore_mem (s : State) (q : Addr) (v : Byte) : { s.write q v with mem := s.mem } = s := rfl

/-- Settles O31, from read over write (`State.read_write`) and `Memory.set_set`. -/
theorem aWriteChangesOneByte : Obligations.AWriteChangesOneByte := by
  intro s q v
  exact ⟨s.read_write_self q v, fun e he => s.read_write_ne q e v he, s.write_write_self q v,
    s.write_restore_mem q v⟩

/-! ### The port for callers outside the block, and faults -/

theorem portRead_inside (m : Memory) {addr : Int} (h : 0 ≤ addr ∧ addr ≤ 65535) :
    portRead m addr = .ok (m.get addr.toNat) := if_pos h

theorem portWrite_inside (m : Memory) {addr : Int} (v : Byte) (h : 0 ≤ addr ∧ addr ≤ 65535) :
    portWrite m addr v = .ok (m.set addr.toNat v) := if_pos h

theorem portRead_outside (m : Memory) {addr : Int} (h : ¬(0 ≤ addr ∧ addr ≤ 65535)) :
    portRead m addr = .error (.addressError addr) := if_neg h

theorem portWrite_outside (m : Memory) {addr : Int} (v : Byte) (h : ¬(0 ≤ addr ∧ addr ≤ 65535)) :
    portWrite m addr v = .error (.addressError addr) := if_neg h

/-- Read over write (`Memory.get_set`) with the written address an integer, as the port takes it. -/
theorem get_set_toNat (m : Memory) {addr : Int} (v : Byte) (h : 0 ≤ addr) (b : Nat) :
    (m.set addr.toNat v).get b = if (b : Int) = addr then v else m.get b := by
  have hb : b = addr.toNat ↔ (b : Int) = addr := by omega
  simp only [Memory.get_set, hb]

/-- No instruction faults, since each answers a next state (`exec_eq_after`). -/
theorem exec_ne_fault (i : Instr) (s : State) (f : Fault) : exec i s ≠ .fault f := by
  simp [exec_eq_after]

/-- Settles O32, by the port's range test and `exec_ne_fault`. -/
theorem addressErrorOnlyFromOutside : Obligations.AddressErrorOnlyFromOutside := by
  refine ⟨fun m addr v => ?_, exec_ne_fault⟩
  split
  · next h => exact ⟨portRead_inside m h, _, portWrite_inside m v h, get_set_toNat m v h.1⟩
  · next h => exact ⟨portRead_outside m h, portWrite_outside m v h⟩

/-! ### Push -/

theorem eq_stackAddr_iff (e : Addr) (sp : Byte) : e = stackAddr sp ↔ e.toNat = 0x0100 + sp.toNat := by
  rw [← BitVec.toNat_inj, stackAddr_toNat]

/-- Push decrements SP mod 256 (R58). -/
theorem State.push_sp_toNat (s : State) (v : Byte) : (s.push v).sp.toNat = (s.sp.toNat + 255) % 256 := by
  rw [State.push_sp]
  bv_omega

/-- Settles O33, from what a push does to memory (`State.read_push`) and its frame. -/
theorem pushWritesThenDecrements : Obligations.PushWritesThenDecrements := by
  intro s v
  refine ⟨fun e => ?_, s.push_sp_toNat v, s.push_pc v, s.push_frame v⟩
  simp only [State.read_push, eq_stackAddr_iff]

end Sys2Proof.Machine
end

section
/-! Proofs on the encoding (30_encoding.md): which bytes the decoder takes for the mode of the opcode byte, and what
the operand bytes of an instruction resolve to. -/

namespace Sys2Proof

/-! ### The bytes the decoder takes -/

/-- The decoder answers the instruction assembled from the opcode byte and two bytes, those its mode consumes taken from
the front of the rest. -/
theorem decode_cons_ok {op : Byte} {rest rest' : List Byte} {i : Instr} (h : decode (op :: rest) = .ok (i, rest')) :
    ∃ b1 b2, i = assemble op b1 b2 ∧ rest = [b1, b2].take (operandCount op) ++ rest' := by
  rw [decode_cons] at h
  split at h
  · next hn =>
    cases h
    exact ⟨0, 0, rfl, by simp [hn]⟩
  · next b1 _ hn =>
    cases h
    exact ⟨b1, 0, rfl, by simp [hn]⟩
  · next b1 b2 _ hn =>
    cases h
    exact ⟨b1, b2, rfl, by simp [hn]⟩
  · cases h

/-- Settles O3: the decoder takes the bytes the entry's mode consumes (`decode_cons_ok`), and what it builds has that
mode (`assemble_mode`). -/
theorem lengthComesFromTheOpcodeByte : Obligations.LengthComesFromTheOpcodeByte := by
  refine ⟨fun op rest rest' i h => ?_, by decide, by decide, by decide⟩
  obtain ⟨b1, b2, rfl, rfl⟩ := decode_cons_ok h
  refine ⟨?_, assemble_mode op b1 b2⟩
  show _ = operandCount op + rest'.length
  simp [operandCount_le]

/-! ### The operand bytes of an instruction -/

/-- The encoder writes the operand bytes after the opcode byte. -/
theorem operandBytes_of_encode {i : Instr} {op : Byte} {bytes : List Byte} (h : encode i = some (op :: bytes)) :
    i.operandBytes = bytes := by
  unfold encode at h
  split at h
  · split at h <;> cases h
    rfl
  · obtain ⟨_, _, he⟩ := Option.map_eq_some_iff.mp h
    exact (List.cons.inj he).2

theorem operandBytes_assemble (op b1 b2 : Byte) :
    (assemble op b1 b2).operandBytes = [b1, b2].take (assemble op b1 b2).count := by
  rw [operandBytes_of_encode (encode_assemble op b1 b2), Instr.count, assemble_mode, operandCount]

namespace Machine

/-! ### The rows of R82's table, from the operand bytes -/

/-- An indexed zero-page address, the sum reduced in the zero page (R86). -/
theorem setWidth_add_eq_ofNat (b r : Byte) : (b + r).setWidth 16 = BitVec.ofNat 16 ((b.toNat + r.toNat) % 256) := by
  rw [← BitVec.ofNat_toNat, BitVec.toNat_add]

/-- An indexed address, the sum reduced at the top of memory (R89, R92). -/
theorem ofNat_add_setWidth (n : Nat) (r : Byte) :
    BitVec.ofNat 16 n + r.setWidth 16 = BitVec.ofNat 16 ((n + r.toNat) % 65536) := by
  rw [← BitVec.ofNat_toNat, ← BitVec.ofNat_add]
  exact BitVec.eq_of_toNat_eq (by simp)

/-- The operand word of an absolute or indirect form, from the two bytes it encodes as (R88). -/
theorem toNat_of_wordBytes {w : Addr} {b1 b2 : Byte} (h : [loByte w, hiByte w] = [b1, b2]) :
    w.toNat = b1.toNat + 256 * b2.toNat := by
  cases h
  rw [← leWord_toNat, leWord_lo_hi]

theorem eq_ofNat_of_wordBytes {w : Addr} {b1 b2 : Byte} (h : [loByte w, hiByte w] = [b1, b2]) :
    w = BitVec.ofNat 16 (b1.toNat + 256 * b2.toNat) := by
  rw [← toNat_of_wordBytes h, BitVec.ofNat_toNat, BitVec.setWidth_eq]

/-- The two bytes after an address, of which an instruction there consumes the first `n` as its operand (R95). -/
def State.operandBytesAt (s : State) (ia : Addr) : List Byte := [s.read (ia + 1), s.read (ia + 2)]

theorem operandBytes_instrAt (s : State) (ia : Addr) :
    (s.instrAt ia).operandBytes = (s.operandBytesAt ia).take (s.instrAt ia).count :=
  operandBytes_assemble _ _ _

section
variable {s : State} {ia : Addr}

theorem get_operandByte_one : s.mem.get ((ia.toNat + 1) % 65536) = s.read (ia + 1) := (s.read_next ia 1).symm

theorem get_operandByte_two : s.mem.get ((ia.toNat + 2) % 65536) = s.read (ia + 2) := (s.read_next ia 2).symm

/-- A memory operand form whose bytes are those after `ia` names the address in its mode's row. -/
theorem MemOperand.resolve_mode {m : MemOperand} (h : m.bytes = (s.operandBytesAt ia).take m.mode.count) :
    resolve m.mode ia s = .addr (m.ea s) := by
  cases m <;>
    simp only [MemOperand.mode, resolve, get_operandByte_one, get_operandByte_two] <;>
    refine congrArg Resolved.addr (Eq.symm ?_)
  case zp b =>
    cases h
    exact (BitVec.ofNat_toNat ..).symm
  case zpx b | zpy b =>
    cases h
    exact setWidth_add_eq_ofNat ..
  case abs w => exact eq_ofNat_of_wordBytes h
  case absx w | absy w =>
    rw [MemOperand.ea, eq_ofNat_of_wordBytes h, ofNat_add_setWidth]
  case indx b =>
    cases h
    rw [MemOperand.ea, State.wordZP_eq, BitVec.toNat_add]
  case indy b =>
    cases h
    rw [MemOperand.ea, State.wordZP_eq, ofNat_add_setWidth]

theorem Src.resolve_mode {src : Src} (h : src.bytes = (s.operandBytesAt ia).take src.mode.count) :
    resolve src.mode ia s = resolvedSrc src s := by
  cases src with
  | imm v =>
    cases h
    exact congrArg Resolved.imm get_operandByte_one
  | mem m => exact MemOperand.resolve_mode h

/-- An instruction whose operand bytes are those after `ia` resolves to the row of R82's table for its mode. -/
theorem resolvedOf_eq_resolve {i : Instr} (h : i.operandBytes = (s.operandBytesAt ia).take i.count) :
    resolvedOf i s = resolve i.mode ia s := by
  symm
  cases i with
  | lda src | ldx src | ldy src | and src | adc src | sbc src | cmp src | cpx src | cpy src =>
    exact Src.resolve_mode h
  | sta m | stx m | sty m | inc m | dec m | bit m | lsr m => exact MemOperand.resolve_mode h
  | bcc d | bcs d | beq d | bne d | bpl d =>
    cases h
    exact congrArg Resolved.rel get_operandByte_one
  | jmp w | jsr w => exact MemOperand.resolve_mode (m := .abs w) h
  | jmpInd w =>
    simp only [resolvedOf, State.word16_eq, toNat_of_wordBytes h, Instr.mode, resolve, get_operandByte_one,
      get_operandByte_two]
  | lsrA | tax | txa | inx | iny | dex | rts | pha | pla | sec | clc | nop | brk | unknown _ => rfl

end

/-- The instruction at an address resolves to the row of the mode of the opcode byte there. -/
theorem resolvedOf_instrAt (s : State) (ia : Addr) :
    resolvedOf (s.instrAt ia) s = resolve (dispatch (s.read ia)).1 ia s := by
  rw [resolvedOf_eq_resolve (operandBytes_instrAt s ia), State.instrAt, assemble_mode]

theorem count_instrAt (s : State) (ia : Addr) : (s.instrAt ia).count = operandCount (s.read ia) := by
  rw [Instr.count, State.instrAt, assemble_mode, operandCount]

/-- Settles O9: the rows of R82's table without indirection (`resolvedOf_instrAt`), and the entry's count. -/
theorem directModesGiveTheirOperand : Obligations.DirectModesGiveTheirOperand := by
  intro s
  have hr := resolvedOf_instrAt s s.pc
  have hc := count_instrAt s s.pc
  unfold operandCount at hc
  simp only [resolve, get_operandByte_one, get_operandByte_two] at hr
  generalize (dispatch (s.read s.pc)).1 = mode at hr hc ⊢
  cases mode with
  | ind | indx | indy => trivial
  | imp | acc | imm | zp | zpx | zpy | rel | abs | absx | absy => exact ⟨hr, hc⟩

end Machine
end Sys2Proof
end

section
/-! Proofs on the sequential advance (40_core_tick.md R126): every instruction that does not transfer control
ends in `State.seq`, applied to a state that still has the PC it began with; so does a branch whose condition fails. -/

namespace Sys2Proof.Machine

/-- A branch not taken is the sequential advance past its displacement byte (45_control_transfer.md R231). -/
theorem State.branch_advances_of_not_taken (s : State) (d : Byte) {cond : Bool} (h : cond = false) :
    AdvancesBy 1 s (s.branch cond d) := by
  subst h
  exact s.advances_seq s 1 rfl

/-- An instruction that does not transfer control leaves PC just past itself. -/
theorem after_advances {i : Instr} {s : State} (h : transfers i s = false) : AdvancesBy i.count s (after i s) := by
  cases i with
  | lda _ | ldx _ | ldy _ | sta _ | stx _ | sty _ | tax | txa | inx | iny | dex | inc _ | dec _ | and _ | bit _ | lsrA
  | lsr _ | adc _ | sbc _ | cmp _ | cpx _ | cpy _ | pha | sec | clc | nop | brk | unknown _ =>
    exact s.advances_seq _ _ rfl
  | pla => exact s.advances_seq _ _ s.popState_pc
  | bcc d | bcs d | beq d | bne d | bpl d => exact s.branch_advances_of_not_taken d h
  | jmp _ | jmpInd _ | jsr _ | rts => exact Bool.noConfusion h

/-- Settles O47, from the case analysis on the instruction in `after_advances`. -/
theorem sequentialInstructionsAdvancePastThemselves : Obligations.SequentialInstructionsAdvancePastThemselves :=
  fun i s h => ⟨after i s, exec_eq_after i s, after_advances h⟩

end Sys2Proof.Machine
end

section
/-! Proofs on the alu_flags_engine (41_alu_flags.md R151, R152). Signed overflow is read off the operands' signs: operands
of different signs never overflow, and two of one sign overflow exactly when the sum crosses into the other half. -/

namespace Sys2Proof.Machine

/-- Settles O37, by the report and the frame of `State.setZN`. -/
theorem setZNWritesTwoFlags : Obligations.SetZNWritesTwoFlags :=
  fun s r => ⟨s.setZN_reports r, s.setZN_frame r, s.setZN_pc r⟩

/-- A byte's sign bit says which half it lies in and how its signed value follows from its unsigned one. -/
theorem toInt_cases_msb (x : Byte) :
    (x.msb = false ∧ x.toNat < 128 ∧ x.toInt = x.toNat) ∨
      (x.msb = true ∧ 128 ≤ x.toNat ∧ x.toInt = x.toNat - 256) := by
  cases hx : x.msb with
  | false =>
    have hlow : x.toNat < 128 := by simpa [hx] using msb_iff x
    exact .inl ⟨rfl, hlow, by simp [BitVec.toInt_eq_msb_cond, hx]⟩
  | true => exact .inr ⟨rfl, (msb_iff x).mp hx, by simp [BitVec.toInt_eq_msb_cond, hx]⟩

theorem add8_r_toNat (a m : Byte) (c : Bool) : (add8 a m c).r.toNat = (a.toNat + m.toNat + c.toNat) % 256 :=
  BitVec.toNat_ofNat _ 8

theorem add8_c_iff (a m : Byte) (c : Bool) : (add8 a m c).c = true ↔ 255 < a.toNat + m.toNat + c.toNat :=
  decide_eq_true_iff

theorem add8_v_iff_signs (a m : Byte) (c : Bool) :
    (add8 a m c).v = true ↔ a.msb = m.msb ∧ (add8 a m c).r.msb ≠ a.msb := by
  simp [add8]

/-- The overflow of R152 is signed overflow, by cases on the operands' signs. -/
theorem add8_v_iff_toInt (a m : Byte) (c : Bool) :
    (add8 a m c).v = true ↔ a.toInt + m.toInt + c.toNat < -128 ∨ 127 < a.toInt + m.toInt + c.toNat := by
  have hr := msb_iff (add8 a m c).r
  rw [add8_r_toNat] at hr
  have hc := c.toNat_le
  have ha := a.isLt
  have hm := m.isLt
  rw [add8_v_iff_signs]
  obtain ⟨has, hau, hai⟩ | ⟨has, hau, hai⟩ := toInt_cases_msb a <;>
    obtain ⟨hms, hmu, hmi⟩ | ⟨hms, hmu, hmi⟩ := toInt_cases_msb m <;>
    rw [has, hms, hai, hmi]
  · have hcross : (add8 a m c).r.msb ≠ false ↔ 128 ≤ a.toNat + m.toNat + c.toNat := by
      rw [Bool.ne_false_iff, hr]; omega
    simp only [hcross, true_and]; omega
  · simp only [Bool.false_eq_true, false_and, false_iff]; omega
  · simp only [Bool.true_eq_false, false_and, false_iff]; omega
  · have hcross : (add8 a m c).r.msb ≠ true ↔ a.toNat + m.toNat + c.toNat < 384 := by
      rw [ne_eq, hr]; omega
    simp only [hcross, true_and]; omega

/-- Settles O38: the sum, the carry and the two readings of the overflow, each a lemma about `add8`. -/
theorem addOverflowIsSignedOverflow : Obligations.AddOverflowIsSignedOverflow :=
  fun a m c => ⟨add8_r_toNat a m c, add8_c_iff a m c, add8_v_iff_signs a m c, add8_v_iff_toInt a m c⟩

end Sys2Proof.Machine
end

section
/-! Proofs on loads, stores and transfers (42_loads_stores_transfers.md). Each of the three shapes has one
specification, for every register, and each instruction is its shape at one register. -/

namespace Sys2Proof.Machine

/-- A load: the operand value in the register, Z and N from it, PC and the frame. -/
theorem State.load_spec (s : State) (r : Reg) (src : Src) :
    (s.load r src).reg r = src.value s ∧ ReportsZN (src.value s) (s.load r src) ∧
      AdvancesBy src.mode.count s (s.load r src) ∧ Frame [r] [.z, .n] [] [] s (s.load r src) :=
  s.setRegZN_seq r (src.value s) src.mode.count

/-- A transfer: the source register in the destination, Z and N from it, PC and the frame. -/
theorem State.transfer_spec (s : State) (src dst : Reg) :
    (s.transfer src dst).reg dst = s.reg src ∧ ReportsZN (s.reg src) (s.transfer src dst) ∧
      AdvancesBy 0 s (s.transfer src dst) ∧ Frame [dst] [.z, .n] [] [] s (s.transfer src dst) :=
  s.setRegZN_seq dst (s.reg src) 0

/-- Settles O10: the loads are `State.load` at A, X and Y (`State.load_spec`), and their rows of the table are the ones
listed. -/
theorem loadsCopyTheOperand : Obligations.LoadsCopyTheOperand := by
  refine ⟨fun src s => ⟨?lda, ?ldx, ?ldy⟩, ?ldaRows, ?ldxRows, ?ldyRows⟩
  case lda => exact ⟨s.load .a src, rfl, s.load_spec .a src⟩
  case ldx => exact ⟨s.load .x src, rfl, s.load_spec .x src⟩
  case ldy => exact ⟨s.load .y src, rfl, s.load_spec .y src⟩
  case ldaRows | ldxRows | ldyRows => exact hasEncodings_of_rows _ _ (by decide) (by decide)

/-- Settles O11: the stores are `State.store` at A, X and Y (`State.store_spec`), and their rows of the table are the
ones listed. -/
theorem storesWriteOneByte : Obligations.StoresWriteOneByte := by
  refine ⟨fun dst s => ⟨?sta, ?stx, ?sty⟩, ?staRows, ?stxRows, ?styRows⟩
  case sta => exact ⟨s.store .a dst, rfl, s.store_spec .a dst⟩
  case stx => exact ⟨s.store .x dst, rfl, s.store_spec .x dst⟩
  case sty => exact ⟨s.store .y dst, rfl, s.store_spec .y dst⟩
  case staRows | stxRows | styRows => exact hasEncodings_of_rows _ _ (by decide) (by decide)

/-- Settles O12: TAX and TXA are `State.transfer` between A and X (`State.transfer_spec`), and each is one row of the
table. -/
theorem transfersCopyBetweenAAndX : Obligations.TransfersCopyBetweenAAndX := by
  refine ⟨fun s => ⟨?tax, ?txa⟩, ?taxRow, ?txaRow⟩
  case tax => exact ⟨s.transfer .a .x, rfl, s.transfer_spec .a .x⟩
  case txa => exact ⟨s.transfer .x .a, rfl, s.transfer_spec .x .a⟩
  case taxRow | txaRow => exact hasEncodings_of_rows _ _ (by decide) (by decide)

end Sys2Proof.Machine
end

section
/-! Proofs on increments, decrements, AND, BIT and LSR (43_incdec_logic_shift.md). What the ALU computes is said once
per function, on bytes; where it lands is the specification of the shape the instruction is (`State.setRegZN_seq`,
`State.modify_spec`, `State.bitTest_spec`, `State.lsrA_spec`, `State.lsrMem_spec`). -/

namespace Sys2Proof.Machine

/-! ### What the alu_flags_engine computes -/

theorem inc8_toNat (v : Byte) : (inc8 v).toNat = (v.toNat + 1) % 256 := BitVec.toNat_add v 1

theorem dec8_toNat (v : Byte) : (dec8 v).toNat = (v.toNat + 255) % 256 := by
  unfold dec8
  bv_omega

theorem getLsbD_and8 (a m : Byte) (k : Nat) : (and8 a m).getLsbD k = (a.getLsbD k && m.getLsbD k) :=
  BitVec.getLsbD_and

/-- Z of BIT: the conjunction is zero where the two bytes share no bit. -/
theorem bit8_z_iff (a m : Byte) : (bit8 a m).z = true ↔ ∀ k, (a.getLsbD k && m.getLsbD k) = false := by
  simp only [bit8, beq_iff_eq, ← BitVec.getLsbD_and]
  constructor
  · intro h k
    rw [h]
    exact BitVec.getLsbD_zero
  · intro h
    exact BitVec.eq_of_getLsbD_eq fun k _ => (h k).trans BitVec.getLsbD_zero.symm

theorem lsr8_r_toNat (v : Byte) : (lsr8 v).r.toNat = v.toNat / 2 := by
  simp [lsr8, BitVec.toNat_ushiftRight, Nat.shiftRight_eq_div_pow]

theorem lsr8_c_iff (v : Byte) : (lsr8 v).c = true ↔ v.toNat % 2 = 1 := by
  simp [lsr8, BitVec.getLsbD, Nat.testBit_zero]

/-! ### What Z and N report -/

/-- A report on a byte is one on whatever holds that byte. -/
theorem ReportsZN.of_eq {v w : Byte} {t : State} (h : ReportsZN v t) (hw : w = v) : ReportsZN w t := hw ▸ h

/-- N is 0 after a right shift: half of a byte is below 128. -/
theorem ReportsZN.flag_n_of_lsr8 {v : Byte} {t : State} (h : ReportsZN (lsr8 v).r t) : t.flag .n = false := by
  have hv := v.isLt
  rw [← Bool.not_eq_true, h.2, lsr8_r_toNat]
  omega

/-! ### Increments and decrements -/

/-- A register given a value by its number, Z and N reporting the register. -/
theorem State.setRegZN_seq_toNat (s : State) (r : Reg) (n : Nat) {v : Byte} {k : Nat} (hv : v.toNat = k) :
    let t := (s.setRegZN r v).seq n
    (t.reg r).toNat = k ∧ ReportsZN (t.reg r) t ∧ AdvancesBy n s t ∧ Frame [r] [.z, .n] [] [] s t := by
  obtain ⟨hr, hzn, hpc, hframe⟩ := s.setRegZN_seq r v n
  exact ⟨(congrArg BitVec.toNat hr).trans hv, hzn.of_eq hr, hpc, hframe⟩

/-- A read-modify-write whose result is given by its number, Z and N reporting the byte written. -/
theorem State.modify_toNat (s : State) (m : MemOperand) {f : Byte → Byte} {k : Nat}
    (hf : (f (s.read (m.ea s))).toNat = k) :
    let t := s.modify m f
    (t.read (m.ea s)).toNat = k ∧ ReportsZN (t.read (m.ea s)) t ∧ AdvancesBy m.mode.count s t ∧
      Frame [] [.z, .n] [m.ea s] [] s t := by
  obtain ⟨hr, hzn, hpc, hframe⟩ := s.modify_spec m f
  exact ⟨(congrArg BitVec.toNat hr).trans hf, hzn.of_eq hr, hpc, hframe⟩

/-- Settles O13: INX, INY and DEX write `inc8` or `dec8` of a register back to it (`State.setRegZN_seq_toNat`), and each
is one row of the table. -/
theorem registerIncrementsWrap : Obligations.RegisterIncrementsWrap := by
  refine ⟨fun s => ⟨?inx, ?iny, ?dex⟩, ?inxRow, ?inyRow, ?dexRow⟩
  case inx => exact ⟨_, rfl, s.setRegZN_seq_toNat .x 0 (inc8_toNat s.x)⟩
  case iny => exact ⟨_, rfl, s.setRegZN_seq_toNat .y 0 (inc8_toNat s.y)⟩
  case dex => exact ⟨_, rfl, s.setRegZN_seq_toNat .x 0 (dec8_toNat s.x)⟩
  case inxRow | inyRow | dexRow => exact hasEncodings_of_rows _ _ (by decide) (by decide)

/-- Settles O14: INC and DEC are `State.modify` with `inc8` and `dec8` (`State.modify_toNat`), and their rows of the
table are the ones listed. -/
theorem memoryIncrementsWrap : Obligations.MemoryIncrementsWrap := by
  refine ⟨fun m s => ⟨?inc, ?dec⟩, ?incRows, ?decRows⟩
  case inc => exact ⟨_, rfl, s.modify_toNat m (inc8_toNat _)⟩
  case dec => exact ⟨_, rfl, s.modify_toNat m (dec8_toNat _)⟩
  case incRows | decRows => exact hasEncodings_of_rows _ _ (by decide) (by decide)

/-! ### AND and BIT -/

/-- Settles O15: AND writes `and8` of A and the operand to A (`State.setRegZN_seq`), read bit by bit (`getLsbD_and8`). -/
theorem andMasksTheAccumulator : Obligations.AndMasksTheAccumulator := by
  refine ⟨fun src s => ?_, hasEncodings_of_rows _ _ (by decide) (by decide)⟩
  obtain ⟨ha, hzn, hpc, hframe⟩ := s.setRegZN_seq .a (and8 s.a (src.value s)) src.mode.count
  exact ⟨_, rfl, fun k => (congrArg (·.getLsbD k) ha).trans (getLsbD_and8 _ _ k), hzn.of_eq ha, hpc, hframe⟩

/-- Settles O16: the flags BIT writes are those of `bit8` (`State.bitTest_spec`), of which V and N are bits of the byte
by definition and Z is `bit8_z_iff`. -/
theorem bitTestsWithoutWriting : Obligations.BitTestsWithoutWriting := by
  refine ⟨fun m s => ?_, hasEncodings_of_rows _ _ (by decide) (by decide)⟩
  obtain ⟨hz, hrest⟩ := s.bitTest_spec m
  exact ⟨_, rfl, (Bool.eq_iff_iff.mp hz).trans (bit8_z_iff _ _), hrest⟩

/-! ### LSR -/

/-- Where a state holds and reports what `lsr8` gives, the byte is half, C the outgoing bit, N 0, whatever else holds. -/
theorem halved_of_lsr8 {v w : Byte} {t : State} {others : Prop}
    (h : w = (lsr8 v).r ∧ t.flag .c = (lsr8 v).c ∧ ReportsZN (lsr8 v).r t ∧ others) :
    w.toNat = v.toNat / 2 ∧ (t.flag .c = true ↔ v.toNat % 2 = 1) ∧ ReportsZN w t ∧ t.flag .n = false ∧ others := by
  obtain ⟨hr, hc, hzn, hothers⟩ := h
  refine ⟨?_, ?_, hzn.of_eq hr, hzn.flag_n_of_lsr8, hothers⟩
  · rw [hr, lsr8_r_toNat]
  · rw [hc, lsr8_c_iff]

/-- Settles O17: both forms of LSR leave the byte and the carry of `lsr8` (`State.lsrA_spec`, `State.lsrMem_spec`), which
`halved_of_lsr8` reads in numbers, and the rows of the table are the ones listed. -/
theorem lsrHalvesIntoCarry : Obligations.LsrHalvesIntoCarry :=
  ⟨fun s => ⟨_, rfl, halved_of_lsr8 s.lsrA_spec⟩, fun m s => ⟨_, rfl, halved_of_lsr8 (s.lsrMem_spec m)⟩,
    hasEncodings_of_rows _ _ (by decide) (by decide)⟩

end Sys2Proof.Machine
end

section
/-! Proofs on ADC, SBC and the compares (44_arith_compare.md). ADC and SBC are one shape, `State.putSum` of `add8`, at
the operand and at its one's complement; the compares are `State.compare` at A, X and Y. -/

namespace Sys2Proof.Machine

/-! ### ADC and SBC -/

/-- A, any byte and the carry-in summed into A, then the advance: the sum, C, V, Z and N, PC and the frame. -/
theorem State.putSum_add8_seq (s : State) (m : Byte) (n : Nat) :
    let sum := s.a.toNat + m.toNat + (s.flag .c).toNat
    let t := (s.putSum (add8 s.a m (s.flag .c))).seq n
    t.a.toNat = sum % 256 ∧ (t.flag .c = true ↔ 255 < sum) ∧
      (t.flag .v = true ↔ s.a.msb = m.msb ∧ t.a.msb ≠ s.a.msb) ∧ ReportsZN t.a t ∧ AdvancesBy n s t ∧
      Frame [.a] [.c, .z, .v, .n] [] [] s t := by
  obtain ⟨ha, hc, hv, hzn, hpc, hframe⟩ := s.putSum_seq (add8 s.a m (s.flag .c)) n
  refine ⟨?_, ?_, ?_, hzn.of_eq ha, hpc, hframe⟩
  · rw [ha, add8_r_toNat]
  · rw [hc, add8_c_iff]
  · rw [hv, ha, add8_v_iff_signs]

/-- Settles O18: ADC is that sum at the operand (`State.putSum_add8_seq`), and its rows of the table are the ones
listed. -/
theorem adcAddsWithCarry : Obligations.AdcAddsWithCarry :=
  ⟨fun src s => ⟨_, rfl, s.putSum_add8_seq (src.value s) src.mode.count⟩,
    hasEncodings_of_rows _ _ (by decide) (by decide)⟩

/-- Settles O19: SBC is the same sum at the operand's one's complement, which is `255 - m` and has the other sign, and
its rows of the table are the ones listed. -/
theorem sbcAddsTheComplement : Obligations.SbcAddsTheComplement := by
  refine ⟨fun src s => ⟨_, rfl, ?_⟩, hasEncodings_of_rows _ _ (by decide) (by decide)⟩
  have hvalue : (~~~src.value s).toNat = 255 - (src.value s).toNat := BitVec.toNat_not
  have hsign : s.a.msb = (~~~src.value s).msb ↔ s.a.msb ≠ (src.value s).msb := by
    simp [BitVec.msb_not, Bool.eq_not]
  have h := s.putSum_add8_seq (~~~src.value s) src.mode.count
  rwa [hvalue, hsign] at h

/-! ### The compares -/

theorem cmp8_c_iff (r m : Byte) : (cmp8 r m).c = true ↔ m.toNat ≤ r.toNat := decide_eq_true_iff

theorem cmp8_z_iff (r m : Byte) : (cmp8 r m).z = true ↔ r = m := beq_iff_eq

theorem cmp8_n_iff (r m : Byte) : (cmp8 r m).n = true ↔ 128 ≤ (r.toNat + 256 - m.toNat) % 256 := by
  have hdiff : (r - m).toNat = (r.toNat + 256 - m.toNat) % 256 := by bv_omega
  rw [← hdiff]
  exact msb_iff (r - m)

/-- A compare reports the register and the operand, and what else it does is PC and the frame. -/
theorem State.compare_reports (s : State) (r : Reg) (src : Src) :
    ReportsCompare (s.reg r) (src.value s) (s.compare r src) ∧ AdvancesBy src.mode.count s (s.compare r src) ∧
      Frame [] [.c, .z, .n] [] [] s (s.compare r src) := by
  obtain ⟨hc, hz, hn, hrest⟩ := s.compare_spec r src
  refine ⟨⟨?_, ?_, ?_⟩, hrest⟩
  · rw [hc, cmp8_c_iff]
  · rw [hz, cmp8_z_iff]
  · rw [hn, cmp8_n_iff]

/-- Settles O20: the compares are `State.compare` at A, X and Y (`State.compare_reports`), and their rows of the table
are the ones listed. -/
theorem comparesSetCarryZeroNegative : Obligations.ComparesSetCarryZeroNegative := by
  refine ⟨fun src s => ⟨?cmp, ?cpx, ?cpy⟩, ?cmpRows, ?cpxRows, ?cpyRows⟩
  case cmp => exact ⟨s.compare .a src, rfl, s.compare_reports .a src⟩
  case cpx => exact ⟨s.compare .x src, rfl, s.compare_reports .x src⟩
  case cpy => exact ⟨s.compare .y src, rfl, s.compare_reports .y src⟩
  case cmpRows | cpxRows | cpyRows => exact hasEncodings_of_rows _ _ (by decide) (by decide)

end Sys2Proof.Machine
end

section
/-! Proofs on PHA, SEC, CLC, NOP and UNKNOWN (46_stack_flags_system.md). None transfers control, so where each leaves PC
is `after_advances`, and what else it leaves unchanged is `after_frame`. -/

namespace Sys2Proof.Machine

/-- What the instructions without operand bytes that transfer control nowhere share: they complete, PC goes to `IA + 1`
(R126), and the rest is their frame. -/
theorem exec_completes_advances_frame {i : Instr} {s : State} (htransfers : transfers i s = false)
    (hcount : i.count = 0) :
    exec i s = .next (after i s) ∧ AdvancesBy 0 s (after i s) ∧
      Frame (changedRegs i) (changedFlags i) (storedAt i s) (emitted i s) s (after i s) :=
  ⟨exec_eq_after i s, hcount ▸ after_advances htransfers, after_frame i s⟩

/-! ### PHA -/

/-- The byte a push stores is read back from where SP pointed. -/
theorem State.read_push_self (s : State) (v : Byte) : (s.push v).read (stackAddr s.sp) = v := by
  rw [State.read_push, if_pos rfl]

/-- Settles O25: PHA is `State.push` of A and the advance, which touches neither memory nor SP. -/
theorem phaPushesTheAccumulator : Obligations.PhaPushesTheAccumulator := by
  refine ⟨fun s => ?_, hasEncodings_of_rows _ _ (by decide) (by decide)⟩
  obtain ⟨hexec, hpc, hframe⟩ := exec_completes_advances_frame (i := .pha) (s := s) rfl rfl
  exact ⟨_, hexec, s.read_push_self s.a, s.push_sp_toNat s.a, hpc, hframe⟩

/-! ### SEC, CLC and NOP -/

/-- Settles O27: SEC and CLC are `State.setFlag` at C and the advance, which keeps the flag written, and each is one row
of the table. -/
theorem secAndClcWriteCarryAlone : Obligations.SecAndClcWriteCarryAlone := by
  refine ⟨fun s => ⟨?sec, ?clc⟩, ?secRow, ?clcRow⟩
  case sec =>
    obtain ⟨hexec, hrest⟩ := exec_completes_advances_frame (i := .sec) (s := s) rfl rfl
    exact ⟨_, hexec, s.flag_setFlag_self .c true, hrest⟩
  case clc =>
    obtain ⟨hexec, hrest⟩ := exec_completes_advances_frame (i := .clc) (s := s) rfl rfl
    exact ⟨_, hexec, s.flag_setFlag_self .c false, hrest⟩
  case secRow | clcRow => exact hasEncodings_of_rows _ _ (by decide) (by decide)

/-- Settles O28: the frame of NOP is empty, and it is one row of the table. -/
theorem nopOnlyAdvances : Obligations.NopOnlyAdvances :=
  ⟨fun s => ⟨_, exec_completes_advances_frame (i := .nop) (s := s) rfl rfl⟩,
    hasEncodings_of_rows _ _ (by decide) (by decide)⟩

/-! ### UNKNOWN -/

/-- IMP is the one mode UNKNOWN's entries have, since it is the one mode its rule admits (`dispatch_modes`). -/
theorem dispatch_mode_of_unknown {op : Byte} (h : (dispatch op).2 = .unknown) : (dispatch op).1 = .imp := by
  have hmodes := dispatch_modes op
  rw [h] at hmodes
  simpa [Op.modes] using hmodes

/-- The entry (IMP, UNKNOWN) is given to exactly the unpopulated bytes (R262). -/
theorem dispatch_eq_imp_unknown_iff (op : Byte) : dispatch op = (.imp, .unknown) ↔ populated op = false := by
  rw [← dispatch_unknown_iff op]
  constructor
  · intro h
    rw [h]
  · intro h
    exact Prod.ext (dispatch_mode_of_unknown h) h

/-- Settles O30: the frame of UNKNOWN holds its diagnostic alone, and its entries are the unpopulated bytes
(`dispatch_eq_imp_unknown_iff`). -/
theorem unknownIsANoOpWithADiagnostic : Obligations.UnknownIsANoOpWithADiagnostic :=
  ⟨fun op s => ⟨_, exec_completes_advances_frame (i := .unknown op) (s := s) rfl rfl⟩, dispatch_eq_imp_unknown_iff⟩

end Sys2Proof.Machine
end

section
/-! Proof on BRK and the Breakpointed status (60_exceptions.md section 2). B decides the end of a tick
(`State.endTick_cases`), and after an instruction that began with B clear it is set by BRK alone (`after_flag_b`). -/

namespace Sys2Proof.Machine

/-- The end check leaves the status or makes it Halted, so it never enters Breakpointed. -/
theorem State.checkEnd_status_ne_breakpointed {s : State} (h : s.status ≠ .breakpointed) :
    s.checkEnd.status ≠ .breakpointed := by
  obtain ⟨-, hcheck⟩ | ⟨-, hcheck⟩ := s.checkEnd_cases
  · rwa [hcheck]
  · rw [hcheck]
    exact Status.noConfusion

/-- The end of a tick enters Breakpointed exactly where B is set. -/
theorem State.endTick_status_breakpointed_iff {s : State} (h : s.status ≠ .breakpointed) :
    s.endTick.status = .breakpointed ↔ s.flag .b = true := by
  obtain ⟨hb, hend⟩ | ⟨hb, hend⟩ := s.endTick_cases
  · simp [hb, hend]
  · simp [hb, hend, State.checkEnd_status_ne_breakpointed h]

/-- With B set, the end of a tick is the write of the status alone: the end check does not run (R308). -/
theorem State.endTick_of_flag_b {s : State} (hb : s.flag .b = true) :
    s.endTick = { s with status := .breakpointed } := if_pos hb

/-- BRK sets B. -/
theorem flag_b_after_brk (s : State) : (after .brk s).flag .b = true := by
  simp [after_flag_b]

/-- A tick of a Running state is the instruction at PC and then the end of the tick. -/
theorem tick_of_running {s : State} (h : s.status = .running) :
    hostEvent .tick s = .next (after (s.instrAt s.pc) s).endTick :=
  (tick_eq s).trans (by rw [if_pos h])

/-- A tick that began Running with B clear ends Breakpointed exactly where its instruction is BRK. -/
theorem endTick_after_status_breakpointed_iff {i : Instr} {s : State} (hrun : s.status = .running)
    (hb : s.flag .b = false) : (after i s).endTick.status = .breakpointed ↔ i = .brk := by
  have hstatus : (after i s).status ≠ .breakpointed := by
    rw [after_status, hrun]
    exact Status.noConfusion
  rw [State.endTick_status_breakpointed_iff hstatus]
  simp [after_flag_b, hb]

/-- Settles O51: by `after_flag_b` the B that the end of the tick tests is set by BRK alone, and after BRK that end
writes the status and nothing else. -/
theorem brkAloneBreakpoints : Obligations.BrkAloneBreakpoints := by
  intro s hrun hb
  refine ⟨_, tick_of_running hrun, endTick_after_status_breakpointed_iff hrun hb, fun hbrk => ?_⟩
  rw [hbrk, State.endTick_of_flag_b (flag_b_after_brk s)]
  have hadvance : AdvancesBy 0 s (after .brk s) := after_advances rfl
  exact ⟨hadvance, after .brk s, exec_eq_after .brk s, rfl⟩

end Sys2Proof.Machine
end

section
/-! Proofs on decoding and encoding (30_encoding.md sections 1 to 4). An instruction is its entry of the table and its
operand bytes (`pair_operandBytes`), and the decoder takes as many bytes as the entry's mode consumes, so decoding and
encoding undo each other. -/

namespace Sys2Proof

/-! ### The instruction of an entry and its operand bytes -/

/-- The memory operand form of a mode whose bytes are given. -/
theorem memOf_bytes {m : MemOperand} {b1 b2 : Byte} (h : m.bytes = [b1, b2].take m.mode.count) :
    memOf m.mode b1 b2 = some m := by
  cases m with
  | zp b | zpx b | zpy b | indx b | indy b =>
    cases h
    rfl
  | abs w | absx w | absy w =>
    cases h
    simp [MemOperand.mode, memOf, Machine.leWord_lo_hi]

theorem srcOf_bytes {src : Src} {b1 b2 : Byte} (h : src.bytes = [b1, b2].take src.mode.count) :
    srcOf src.mode b1 b2 = some src := by
  cases src with
  | imm v =>
    cases h
    rfl
  | mem m =>
    have hmem : srcOf m.mode b1 b2 = (memOf m.mode b1 b2).map .mem := by cases m <;> rfl
    exact hmem.trans (congrArg (Option.map Src.mem) (memOf_bytes h))

/-- The entry of an instruction and its operand bytes give it back. -/
theorem pair_operandBytes {i : Instr} {b1 b2 : Byte} (hop : i.op ≠ .unknown)
    (h : i.operandBytes = [b1, b2].take i.count) : pair i.op i.mode b1 b2 = some i := by
  cases i with
  | lda src | ldx src | ldy src | and src | adc src | sbc src | cmp src | cpx src | cpy src =>
    exact congrArg (Option.map _) (srcOf_bytes h)
  | sta m | stx m | sty m | inc m | dec m | bit m => exact congrArg (Option.map _) (memOf_bytes h)
  | lsr m =>
    have hacc : m.mode ≠ .acc := by cases m <;> exact Mode.noConfusion
    exact (if_neg hacc).trans (congrArg (Option.map _) (memOf_bytes h))
  | bcc d | bcs d | beq d | bne d | bpl d =>
    cases h
    rfl
  | jmp w | jmpInd w | jsr w =>
    cases h
    simp [pair, Instr.op, Instr.mode, Machine.leWord_lo_hi]
  | lsrA | tax | txa | inx | iny | dex | rts | pha | pla | sec | clc | nop | brk => rfl
  | unknown op => exact absurd rfl hop

/-- An operation in a mode its rule lists is a row of the table. -/
theorem exists_row_of_mem_modes : ∀ o : Op, o ≠ .unknown → ∀ m ∈ o.modes, ∃ r ∈ rows, r.op = o ∧ r.mode = m := by
  intro o
  cases o <;> decide +kernel

/-- A well-formed instruction has an opcode byte, whose entry is its mode and operation. -/
theorem exists_opcode_of_wellFormed {i : Instr} (hop : i.op ≠ .unknown) (hwf : WellFormed i = true) :
    ∃ op, opcodeOf i.op i.mode = some op ∧ dispatch op = (i.mode, i.op) := by
  have hmode : i.mode ∈ i.op.modes := List.contains_iff_mem.mp (Bool.and_eq_true_iff.mp hwf).1
  obtain ⟨r, hr, hrop, hrmode⟩ := exists_row_of_mem_modes i.op hop i.mode hmode
  exact ⟨r.opcode, hrop ▸ hrmode ▸ dispatch_opcodeOf r hr⟩

theorem length_operandBytes (i : Instr) : i.operandBytes.length = i.count := by
  cases i with
  | lda src | ldx src | ldy src | and src | adc src | sbc src | cmp src | cpx src | cpy src => exact src.length_bytes
  | sta m | stx m | sty m | inc m | dec m | bit m | lsr m => exact m.length_bytes
  | bcc _ | bcs _ | beq _ | bne _ | bpl _ | jmp _ | jmpInd _ | jsr _ | lsrA | tax | txa | inx | iny | dex | rts | pha
  | pla | sec | clc | nop | brk | unknown _ => rfl

theorem encode_of_op_ne_unknown {i : Instr} (hop : i.op ≠ .unknown) :
    encode i = (opcodeOf i.op i.mode).map (fun op => op :: i.operandBytes) := by
  cases i with
  | unknown op => exact absurd rfl hop
  | _ => rfl

/-! ### The bytes the decoder takes -/

/-- With the operand bytes there, decoding takes them and answers the instruction they assemble to. -/
theorem decode_operands {op : Byte} {bytes : List Byte} (h : bytes.length = operandCount op) :
    ∃ b1 b2, bytes = [b1, b2].take (operandCount op) ∧
      ∀ rest, decode (op :: (bytes ++ rest)) = .ok (assemble op b1 b2, rest) := by
  have hle := operandCount_le op
  match bytes with
  | [] => exact ⟨0, 0, by simp [← h], fun rest => by simp [decode_cons, ← h]⟩
  | [b1] => exact ⟨b1, 0, by simp [← h], fun rest => by simp [decode_cons, ← h]⟩
  | [b1, b2] => exact ⟨b1, b2, by simp [← h], fun rest => by simp [decode_cons, ← h]⟩
  | _ :: _ :: _ :: _ =>
    simp only [List.length_cons] at h
    omega

/-- With operand bytes missing, decoding is refused. -/
theorem decode_of_short {op : Byte} {rest : List Byte} (h : rest.length < operandCount op) :
    decode (op :: rest) = .error (.missingOperandByte op) := by
  rw [decode_cons]
  split
  · next hn => simp [hn] at h
  · next hn => simp [hn] at h
  · next hn => simp [hn] at h
  · rfl

/-- Settles O4: a list too short for its opcode is refused (`decode_of_short`), and any other begins with the operand
bytes, which `decode_operands` takes. -/
theorem decodingFailsOnlyForMissingBytes : Obligations.DecodingFailsOnlyForMissingBytes := by
  refine ⟨rfl, fun op rest => ?_⟩
  split
  · next hshort => exact decode_of_short hshort
  · next henough =>
    have hlength : (rest.take (operandCount op)).length = operandCount op :=
      List.length_take_of_le (Nat.not_lt.mp henough)
    obtain ⟨b1, b2, -, hdecode⟩ := decode_operands hlength
    refine ⟨assemble op b1 b2, ?_⟩
    simpa using hdecode (rest.drop (operandCount op))

/-! ### Unpopulated bytes -/

/-- An unpopulated byte decodes to UNKNOWN of itself and takes no byte after it. -/
theorem decode_of_unpopulated {op : Byte} (h : populated op = false) (rest : List Byte) :
    decode (op :: rest) = .ok (.unknown op, rest) := by
  have hentry := (Machine.dispatch_eq_imp_unknown_iff op).mpr h
  simp [decode_cons, operandCount, assemble, hentry, Mode.count, pair]

/-- Settles O5: R101's empty places are the entries (IMP, UNKNOWN) (`dispatch_eq_imp_unknown_iff`), and each decodes
alone. -/
theorem unlistedBytesAreUnknown : Obligations.UnlistedBytesAreUnknown :=
  fun op h => ⟨(Machine.dispatch_eq_imp_unknown_iff op).mpr h, decode_of_unpopulated h⟩

/-! ### Decoding and encoding undo each other -/

/-- An instruction with a populated entry decodes from its encoding. -/
theorem decode_encode_of_op_ne_unknown {i : Instr} (hop : i.op ≠ .unknown) (hwf : WellFormed i = true) :
    ∃ bytes, encode i = some bytes ∧ ∀ rest, decode (bytes ++ rest) = .ok (i, rest) := by
  obtain ⟨op, hopcode, hentry⟩ := exists_opcode_of_wellFormed hop hwf
  have hcount : operandCount op = i.count := by rw [operandCount, hentry, Instr.count]
  obtain ⟨b1, b2, hbytes, hdecode⟩ := decode_operands ((length_operandBytes i).trans hcount.symm)
  have hassemble : assemble op b1 b2 = i := by
    rw [assemble, hentry, pair_operandBytes hop (hcount ▸ hbytes), Option.getD_some]
  refine ⟨op :: i.operandBytes, ?_, fun rest => hassemble ▸ hdecode rest⟩
  rw [encode_of_op_ne_unknown hop, hopcode, Option.map_some]

/-- UNKNOWN of an unpopulated byte decodes from that byte, its encoding. -/
theorem decode_encode_unknown {op : Byte} (hwf : WellFormed (.unknown op) = true) :
    ∃ bytes, encode (.unknown op) = some bytes ∧ ∀ rest, decode (bytes ++ rest) = .ok (.unknown op, rest) := by
  have hunpopulated : populated op = false := by simpa [WellFormed, Instr.op, Instr.mode, Op.modes] using hwf
  exact ⟨[op], if_pos ((dispatch_unknown_iff op).mpr hunpopulated), decode_of_unpopulated hunpopulated⟩

/-- Settles O1: an instruction with a populated entry is that entry and its operand bytes, and UNKNOWN is its byte
alone. -/
theorem decodeOfEncodeIsTheInstruction : Obligations.DecodeOfEncodeIsTheInstruction := by
  intro i hwf
  cases i with
  | unknown op => exact decode_encode_unknown hwf
  | _ => exact decode_encode_of_op_ne_unknown Op.noConfusion hwf

/-- Settles O2: what the decoder answers is assembled from the opcode byte and the bytes taken (`decode_cons_ok`);
that is well-formed (`wellFormed_assemble`) and encodes as those bytes (`encode_assemble`). -/
theorem decodedBytesAreTheEncoding : Obligations.DecodedBytesAreTheEncoding := by
  intro bytes rest i h
  cases bytes with
  | nil => cases h
  | cons op operands =>
    obtain ⟨b1, b2, rfl, rfl⟩ := decode_cons_ok h
    exact ⟨wellFormed_assemble op b1 b2, _, encode_assemble op b1 b2, rfl⟩

/-! ### The table's entries and sample words -/

/-- A row of the table pairs its operation with a mode the operation's rule lists. -/
theorem mode_mem_modes_of_row {r : Row} (hr : r ∈ rows) : r.mode ∈ r.op.modes := by
  have hmodes := dispatch_modes r.opcode
  rw [(dispatch_opcodeOf r hr).2] at hmodes
  exact List.contains_iff_mem.mp hmodes

/-- Settles O6: each clause is one about the modes the operations take, since a row's mode is one of those
(`mode_mem_modes_of_row`); the numbers of entries are counted. -/
theorem populatedEntriesPairAsTheSpecSays : Obligations.PopulatedEntriesPairAsTheSpecSays := by
  refine ⟨fun r hr => ?_, rfl, by decide +kernel⟩
  have hmode := mode_mem_modes_of_row hr
  generalize r.op = o at hmode ⊢
  generalize r.mode = m at hmode ⊢
  revert m
  cases o <;> decide

/-- Settles O7: the words are decoded. -/
theorem sampleWordsDecode : Obligations.SampleWordsDecode := by
  unfold Obligations.SampleWordsDecode
  decide

end Sys2Proof
end

section
/-! Proofs on the operand of the instruction at PC (30_encoding.md section 2) and on branches and jumps
(45_control_transfer.md sections 1 and 2). -/

namespace Sys2Proof.Machine

/-- Settles O8: `resolvedOf_instrAt` at PC. -/
theorem operandsResolveAsTheModeTableSays : Obligations.OperandsResolveAsTheModeTableSays :=
  fun s => resolvedOf_instrAt s s.pc

/-! ### Branches and jumps -/

/-- A sum of an address and a displacement, read in the integers. -/
theorem toNat_add_signExtend (w : Addr) (d : Byte) :
    ((w + d.signExtend 16).toNat : Int) = (w.toNat + d.toInt) % 65536 := by
  have hd : ((d.signExtend 16).toNat : Int) = d.toInt % 65536 := by
    rw [BitVec.signExtend, BitVec.toNat_ofInt]
    omega
  rw [BitVec.toNat_add]
  omega

/-- The bias is 1 for a displacement that is not negative under the parameter, else 0. -/
theorem branchBias_toNat (bias : Bool) (d : Byte) :
    ((if d.msb then 0 else if bias then 1 else 0 : Addr).toNat : Int) =
      if 0 ≤ d.toInt ∧ bias = true then 1 else 0 := by
  rw [BitVec.msb_eq_toInt]
  cases bias with
  | false => simp
  | true => by_cases hsign : d.toInt < 0 <;> simp [hsign]

/-- The target of a taken branch (R231), in the integers. -/
theorem branchTarget_toNat (bias : Bool) (ia : Addr) (d : Byte) :
    ((branchTarget bias ia d).toNat : Int) =
      (ia.toNat + 2 + d.toInt + (if 0 ≤ d.toInt ∧ bias = true then 1 else 0)) % 65536 := by
  have hstart : (ia + 2).toNat = (ia.toNat + 2) % 65536 := BitVec.toNat_add ia 2
  have hunbiased := toNat_add_signExtend (ia + 2) d
  rw [branchTarget, BitVec.toNat_add, ← branchBias_toNat]
  omega

/-- Each branch goes where its condition says. -/
theorem State.branch_goesTo (s : State) (cond : Bool) (d : Byte) : GoesTo cond d s (s.branch cond d) := by
  cases cond with
  | true => exact branchTarget_toNat s.cfg.branchFwdBias s.pc d
  | false => exact congrArg Int.ofNat (s.seq_pc_toNat 1)

/-- Settles O21: the branches are `State.branch` at their conditions, and each is one row of the table. -/
theorem branchesGoToTheirTarget : Obligations.BranchesGoToTheirTarget := by
  refine ⟨fun d s => ⟨?bcc, ?bcs, ?beq, ?bne, ?bpl⟩, ?bccRow, ?bcsRow, ?beqRow, ?bneRow, ?bplRow⟩
  case bcc | bcs | beq | bne | bpl => exact ⟨_, rfl, s.branch_goesTo _ d, s.branch_frame _ d⟩
  case bccRow | bcsRow | beqRow | bneRow | bplRow => exact hasEncodings_of_rows _ _ (by decide) (by decide)

/-- The word at a pointer, its high byte read at the pointer plus 1 mod 65536 (30_encoding.md R94). -/
theorem State.word16_toNat (s : State) (p : Addr) :
    (s.word16 p).toNat = (s.read p).toNat + 256 * (s.read (BitVec.ofNat 16 ((p.toNat + 1) % 65536))).toNat := by
  have hnext : BitVec.ofNat 16 ((p.toNat + 1) % 65536) = p + 1 := BitVec.eq_of_toNat_eq (by simp [BitVec.toNat_add])
  rw [hnext]
  exact leWord_toNat _ _

/-- Settles O22: both jumps are `State.jump`, to the operand word and to the word at it (`State.word16_toNat`), and
JMP's rows of the table are the two listed. -/
theorem jumpsLandOnTheirTarget : Obligations.JumpsLandOnTheirTarget := by
  refine ⟨fun w s => ⟨?jmp, ?jmpInd⟩, hasEncodings_of_rows _ _ (by decide) (by decide)⟩
  case jmp => exact ⟨_, rfl, rfl, s.jump_frame w⟩
  case jmpInd => exact ⟨_, rfl, s.word16_toNat w, s.jump_frame _⟩

end Sys2Proof.Machine
end

section
/-! Proofs on the stack (20_memory.md section 4) and the instructions that use it: JSR, RTS, PLA and BRK. What the
pushes leave in memory is said once for `State.push16`, what the pops take once for `State.pop16Value`; what an
instruction leaves unchanged is `after_frame`. -/

namespace Sys2Proof.Machine

/-! ### Pushes: JSR and BRK -/

theorem loByte_toNat (w : Addr) : (loByte w).toNat = w.toNat % 256 := by
  simp [loByte, BitVec.extractLsb'_toNat]

theorem hiByte_toNat (w : Addr) : (hiByte w).toNat = w.toNat / 256 := by
  have hw := w.isLt
  simp only [hiByte, BitVec.extractLsb'_toNat, Nat.shiftRight_eq_div_pow]
  omega

/-- Stack bytes at different distances from SP are different bytes of memory. -/
theorem stackAddr_sub_inj (sp j k : Byte) : stackAddr (sp - j) = stackAddr (sp - k) ↔ j = k := by
  rw [stackAddr_inj, sub_right_inj]

theorem stackAddr_add_inj (sp j k : Byte) : stackAddr (sp + j) = stackAddr (sp + k) ↔ j = k := by
  rw [stackAddr_inj, add_right_inj]

/-- A stack byte below SP is another than the one SP names. -/
theorem stackAddr_ne_sub (sp : Byte) {k : Byte} (hk : k ≠ 0) : stackAddr sp ≠ stackAddr (sp - k) := by
  have hne := (stackAddr_sub_inj sp 0 k).not.mpr hk.symm
  rwa [sub_zero] at hne

/-- A pushed word's high byte is where SP was, its low byte one below (R61). -/
theorem State.read_push16_hi (s : State) (w : Addr) : (s.push16 w).read (stackAddr s.sp) = hiByte w := by
  rw [State.push16, State.read_push, State.push_sp, if_neg (stackAddr_ne_sub s.sp (by decide)),
    State.read_push_self]

theorem State.read_push16_lo (s : State) (w : Addr) : (s.push16 w).read (stackAddr (s.sp - 1)) = loByte w :=
  (s.push (hiByte w)).read_push_self (loByte w)

/-- Settles O23: JSR is `State.push16` of `IA + 2` and a jump, and one row of the table. -/
theorem jsrPushesTheReturnAddress : Obligations.JsrPushesTheReturnAddress := by
  refine ⟨fun w s => ?_, hasEncodings_of_rows _ _ (by decide) (by decide)⟩
  have hreturn : (s.pc + 2).toNat = (s.pc.toNat + 2) % 65536 := BitVec.toNat_add s.pc 2
  refine ⟨after (.jsr w) s, exec_eq_after _ s, rfl, ?sp, ?hi, ?lo, after_frame (.jsr w) s⟩
  case sp => exact BitVec.sub_sub ..
  case hi =>
    have hread := congrArg BitVec.toNat (s.read_push16_hi (s.pc + 2))
    rwa [hiByte_toNat, hreturn] at hread
  case lo =>
    have hread := congrArg BitVec.toNat (s.read_push16_lo (s.pc + 2))
    rw [loByte_toNat, hreturn] at hread
    exact hread.trans (by omega)

/-- After BRK, P is at the third stack byte from SP down, and the pushed PC above it (R260). -/
theorem read_after_brk (s : State) (e : Addr) :
    (after .brk s).read e = if e = stackAddr (s.sp - 2) then s.readP else (s.push16 s.pc).read e := by
  have hsp : (s.push16 s.pc).sp = s.sp - 2 := BitVec.sub_sub ..
  have hread := (s.push16 s.pc).read_push s.readP e
  rwa [hsp] at hread

/-- Settles O29: BRK is the push of PC, then of P, then the write of B (`read_after_brk`, `flag_b_after_brk`), and one
row of the table. -/
theorem brkPushesPcAndFlags : Obligations.BrkPushesPcAndFlags := by
  refine ⟨fun s => ?_, hasEncodings_of_rows _ _ (by decide) (by decide)⟩
  refine ⟨after .brk s, exec_eq_after _ s, flag_b_after_brk s, ?sp, after_advances rfl, ?hi, ?lo, ?p,
    after_frame .brk s⟩
  case sp =>
    have hsp : (after .brk s).sp = s.sp - 1 - 1 - 1 := rfl
    rw [hsp, BitVec.sub_sub, BitVec.sub_sub]
    rfl
  case hi => rw [read_after_brk, if_neg (stackAddr_ne_sub s.sp (by decide)), State.read_push16_hi, hiByte_toNat]
  case lo =>
    have hne : stackAddr (s.sp - 1) ≠ stackAddr (s.sp - 2) := by simp [stackAddr_sub_inj]
    rw [read_after_brk, if_neg hne, State.read_push16_lo, loByte_toNat]
  case p => rw [read_after_brk, if_pos rfl]

/-! ### Pops: RTS and PLA -/

/-- The second byte popped is the one two above SP: it is not the one a clearing pop has just cleared. -/
theorem State.popValue_popState (s : State) : s.popState.popValue = s.read (stackAddr (s.sp + 2)) := by
  have hsp : s.popState.sp + 1 = s.sp + 2 := (congrArg (· + 1) s.popState_sp).trans (BitVec.add_assoc ..)
  have hne : stackAddr (s.sp + 2) ≠ stackAddr (s.sp + 1) := by simp [stackAddr_add_inj]
  rw [State.popValue, hsp, State.read_popState, if_neg (fun h => hne h.2)]

/-- The word popped is the two bytes above SP, low byte first (R61). -/
theorem State.pop16Value_toNat (s : State) :
    s.pop16Value.toNat = (s.read (stackAddr (s.sp + 1))).toNat + 256 * (s.read (stackAddr (s.sp + 2))).toNat := by
  rw [State.pop16Value, leWord_toNat, State.popValue_popState, State.popValue]

theorem State.pop16State_sp_add_two (s : State) : s.pop16State.sp = s.sp + 2 :=
  s.pop16State_sp.trans (BitVec.add_assoc ..)

/-- A clearing pop leaves `0x00` at the byte it popped, and no later pop changes that. -/
theorem State.read_popState_of_clearOnPop {s : State} (h : s.cfg.clearOnPop = true) :
    s.popState.read (stackAddr (s.sp + 1)) = 0x00 := by
  rw [State.read_popState, if_pos ⟨h, rfl⟩]

theorem State.read_popState_of_zero {s : State} {e : Addr} (h : s.read e = 0x00) : s.popState.read e = 0x00 := by
  rw [State.read_popState, h, ite_self]

/-- Settles O24: RTS is a pop of a word and a jump past it; under `CLEAR_ON_POP` each of the two pops clears its byte,
and without it memory is outside the frame's stores. -/
theorem rtsReturnsPastThePoppedWord : Obligations.RtsReturnsPastThePoppedWord := by
  refine ⟨fun s => ?_, hasEncodings_of_rows _ _ (by decide) (by decide)⟩
  have hframe := after_frame .rts s
  have hsecond : s.sp + 1 + 1 = s.sp + 2 := BitVec.add_assoc ..
  rw [storedAt, hsecond] at hframe
  refine ⟨after .rts s, exec_eq_after _ s, s.pop16State_sp_add_two, ?pc, ?memory⟩
  case pc =>
    have hpc : (after .rts s).pc.toNat = (s.pop16Value.toNat + 1) % 65536 := BitVec.toNat_add s.pop16Value 1
    rw [hpc, State.pop16Value_toNat]
  case memory =>
    split
    · next hclear =>
      rw [if_pos hclear] at hframe
      have hlater : s.popState.read (stackAddr (s.sp + 1)) = 0x00 := State.read_popState_of_clearOnPop hclear
      refine ⟨State.read_popState_of_zero hlater, ?_, hframe⟩
      have hlast : s.popState.popState.read (stackAddr (s.popState.sp + 1)) = 0x00 :=
        State.read_popState_of_clearOnPop (by simpa using hclear)
      rwa [State.popState_sp, hsecond] at hlast
    · next hkeep => rwa [if_neg hkeep] at hframe

/-- Settles O26: PLA is a pop into A with Z and N from it (`State.setRegZN_seq`), and one row of the table. -/
theorem plaPullsTheAccumulator : Obligations.PlaPullsTheAccumulator := by
  refine ⟨fun s => ?_, hasEncodings_of_rows _ _ (by decide) (by decide)⟩
  obtain ⟨ha, hzn, -, -⟩ := s.popState.setRegZN_seq .a s.popValue 0
  have hframe := after_frame .pla s
  rw [storedAt] at hframe
  refine ⟨after .pla s, exec_eq_after _ s, ha, hzn.of_eq ha, ?sp, after_advances rfl, ?memory⟩
  case sp =>
    have hsp : (after .pla s).sp = s.sp + 1 := s.popState_sp
    rw [hsp, BitVec.toNat_add]
    rfl
  case memory =>
    split
    · next hclear =>
      rw [if_pos hclear] at hframe
      exact ⟨State.read_popState_of_clearOnPop hclear, hframe⟩
    · next hkeep => rwa [if_neg hkeep] at hframe

/-! ### Words and runs of bytes -/

theorem hiByte_eq_ofNat (w : Addr) : hiByte w = BitVec.ofNat 8 (w.toNat / 256) := by
  rw [← hiByte_toNat, BitVec.ofNat_toNat, BitVec.setWidth_eq]

theorem loByte_eq_ofNat (w : Addr) : loByte w = BitVec.ofNat 8 (w.toNat % 256) := by
  rw [← loByte_toNat, BitVec.ofNat_toNat, BitVec.setWidth_eq]

/-- Two pops after a word's push give SP back. -/
theorem State.sp_pop16State_push16 (s : State) (w : Addr) : (s.push16 w).pop16State.sp = s.sp := by
  rw [State.pop16State_sp, State.push16_sp, BitVec.sub_add_cancel, BitVec.sub_add_cancel]

/-- Settles O34: the pushes and pops of a word's bytes, and the round trip `State.pop16Value_push16`. -/
theorem wordsPushHighByteFirst : Obligations.WordsPushHighByteFirst := by
  intro s w
  refine ⟨?push, leWord_toNat _ _, s.pop16Value_push16 w, s.sp_pop16State_push16 w⟩
  case push => rw [State.push16, hiByte_eq_ofNat, loByte_eq_ofNat]

/-- What a pop of a word gives depends on SP and memory alone. -/
theorem State.pop16Value_congr {t u : State} (hsp : u.sp = t.sp) (hread : ∀ e, u.read e = t.read e) :
    u.pop16Value = t.pop16Value := by
  apply BitVec.eq_of_toNat_eq
  rw [State.pop16Value_toNat, State.pop16Value_toNat, hsp, hread, hread]

/-- Settles O36: the word RTS pops is the one JSR pushed, `IA + 2` (`State.pop16Value_push16`). -/
theorem rtsUndoesJsr : Obligations.RtsUndoesJsr := by
  intro w s t u hjsr hsp hread
  cases hjsr
  have hvalue : u.pop16Value = s.pc + 2 :=
    (State.pop16Value_congr (t := s.push16 (s.pc + 2)) hsp hread).trans (s.pop16Value_push16 _)
  refine ⟨after .rts u, exec_eq_after _ u, ?pc, ?sp⟩
  case pc =>
    have hpc : (after .rts u).pc = s.pc + 2 + 1 := congrArg (· + 1) hvalue
    rw [hpc, BitVec.add_assoc, BitVec.toNat_add]
    rfl
  case sp =>
    have hpops : (after .rts u).sp = u.sp + 1 + 1 := u.pop16State_sp
    have hpushes : u.sp = s.sp - 1 - 1 := hsp
    rw [hpops, hpushes, BitVec.sub_add_cancel, BitVec.sub_add_cancel]

/-- The bytes a run of pops gives after a run of pushes are the pushed ones, last first, for the first 256. -/
theorem State.popAll_pushAll_getElem? (s : State) (vs : List Byte) {k : Nat} (hk : k < 256) :
    ((s.pushAll vs).popAll vs.length).1[k]? = vs.reverse[k]? := by
  obtain ⟨hlength, -, hvalues⟩ := State.popAll_spec vs.length (s.pushAll vs)
  by_cases hin : k < vs.length
  · rw [hvalues k hin hk, State.pushAll_spec vs s k hin hk]
  · rw [List.getElem?_eq_none (by omega), List.getElem?_eq_none (by simpa using hin)]

/-- Settles O35: SP goes down and up by the same number, and the first 256 bytes are compared one by one
(`State.popAll_pushAll_getElem?`). -/
theorem popsReverseThePushes : Obligations.PopsReverseThePushes := by
  intro s vs
  obtain ⟨hlength, hsp, -⟩ := State.popAll_spec vs.length (s.pushAll vs)
  have hfirst : (((s.pushAll vs).popAll vs.length).1.take 256) = vs.reverse.take 256 := by
    apply List.ext_getElem?
    intro k
    rw [List.getElem?_take, List.getElem?_take]
    split
    · next hk => exact s.popAll_pushAll_getElem? vs hk
    · rfl
  refine ⟨?sp, hfirst, fun hle => ?all⟩
  case sp => rw [hsp, State.pushAll_sp, BitVec.sub_add_cancel]
  case all => rwa [List.take_of_length_le (by omega), List.take_of_length_le (by simpa using hle)] at hfirst

end Sys2Proof.Machine
end

section
/-! Proofs on subtraction (41_alu_flags.md R153). `Sub8` is `Add8` at the one's complement, which is `255 - m` unsigned
and `-1 - m` signed, so its three outputs are those of `Add8` read again. -/

namespace Sys2Proof.Machine

/-- The one's complement, unsigned. -/
theorem toNat_complement (m : Byte) : (~~~m).toNat = 255 - m.toNat := BitVec.toNat_not

/-- The one's complement, signed. -/
theorem toInt_complement (m : Byte) : (~~~m).toInt = -1 - m.toInt := by
  have hcomplement := toNat_complement m
  have hm := m.isLt
  obtain ⟨-, hu, hi⟩ | ⟨-, hu, hi⟩ := toInt_cases_msb m <;>
    obtain ⟨-, hu', hi'⟩ | ⟨-, hu', hi'⟩ := toInt_cases_msb (~~~m) <;> omega

/-- Settles O39: each clause is the one about `add8` at the complement. -/
theorem subtractBorrowsAndOverflows : Obligations.SubtractBorrowsAndOverflows := by
  intro a m c
  have hm := m.isLt
  have hc := c.toNat_le
  have hcomplement := toNat_complement m
  refine ⟨?result, ?carry, ?overflow⟩
  case result =>
    have hr := add8_r_toNat a (~~~m) c
    rw [hcomplement] at hr
    rw [sub8, hr]
    omega
  case carry =>
    rw [sub8, add8_c_iff, hcomplement]
    omega
  case overflow =>
    rw [sub8, add8_v_iff_toInt, toInt_complement]
    omega

/-- Subtracting with the carry set what was added with it clear gives the byte back. -/
theorem sub8_add8 (a m : Byte) : (sub8 (add8 a m false).r m true).r = a := by
  apply BitVec.eq_of_toNat_eq
  have ha := a.isLt
  have hm := m.isLt
  rw [sub8, add8_r_toNat, add8_r_toNat, toNat_complement]
  simp only [Bool.toNat_false, Bool.toNat_true]
  omega

/-- Settles O40: ADC leaves `add8` in A, SEC sets the carry and keeps A, and SBC subtracts (`sub8_add8`). -/
theorem sbcUndoesAdc : Obligations.SbcUndoesAdc := by
  intro b s t u hcarry hadc hsec
  obtain rfl := after_of_exec hadc
  obtain rfl := after_of_exec hsec
  have hadded : (after (.adc (.imm b)) s).a = (add8 s.a b false).r := hcarry ▸ (s.putSum_seq _ _).1
  generalize after (.adc (.imm b)) s = t at hadded ⊢
  have hset : (after .sec t).flag .c = true := t.flag_setFlag_self .c true
  have hsubtracted : (after (.sbc (.imm b)) (after .sec t)).a = (sub8 t.a b ((after .sec t).flag .c)).r :=
    ((after .sec t).putSum_seq _ _).1
  refine ⟨_, exec_eq_after _ _, ?_⟩
  rw [hsubtracted, hset, hadded, sub8_add8]

end Sys2Proof.Machine
end

section
/-! Proofs on who writes and who reads what (10_state.md sections 1 and 2, 20_memory.md section 2). The writers follow
from the frame of every instruction (`after_frame`). For the readers, an instruction commutes with the write of a register it
does not read (`after_setReg`), and two states that agree but for a flag that steers nothing still agree after it
(`AgreeBut.after`). -/

namespace Sys2Proof.Machine

/-! ### The writers -/

/-- Settles O41: the registers in an instruction's frame are written by it (`not_changedRegs`). -/
theorem onlyTheListedInstructionsWriteARegister : Obligations.OnlyTheListedInstructionsWriteARegister := by
  intro r i s t h hunwritten
  obtain rfl := after_of_exec h
  exact (after_frame i s).regs r (not_changedRegs i r hunwritten)

/-- The byte where BRK pushed P is the P it began with. -/
theorem read_pushedP_after_brk (s : State) : (after .brk s).read (stackAddr (s.sp - 2)) = s.readP :=
  (read_after_brk s _).trans (if_pos rfl)

/-- Settles O44: the flags in an instruction's frame are written by it (`not_changedFlags`), and every reading of P has
bit 5 set (`State.readP_bit5`), the one BRK pushes too. -/
theorem onlyTheListedInstructionsWriteAFlag : Obligations.OnlyTheListedInstructionsWriteAFlag := by
  refine ⟨fun f i s t h hunwritten => ?_, fun s => ⟨s.readP_bit5, s.readP_bit5⟩, fun s t h => ?_⟩
  · obtain rfl := after_of_exec h
    exact (after_frame i s).flags f (not_changedFlags i f hunwritten)
  · obtain rfl := after_of_exec h
    rw [read_pushedP_after_brk, State.readP_bit5]

/-- Settles O46: an instruction outside the list has no store in its frame (`storedAt_nil`). -/
theorem onlyTheListedInstructionsWriteMemory : Obligations.OnlyTheListedInstructionsWriteMemory := by
  intro i s t h hunwritten e
  obtain rfl := after_of_exec h
  exact (after_frame i s).memory e (by simp [storedAt_nil i s hunwritten])

/-! ### A register write before an operation that does not read the register -/

/-- A register written after an operation that itself writes the listed ones: the operation's write stands. -/
def State.setRegUnless (s : State) (regs : List Reg) (r : Reg) (v : Byte) : State :=
  if r ∈ regs then s else s.setReg r v

section
variable {s : State} {r : Reg} {v : Byte}

theorem State.setRegUnless_of_not_mem {regs : List Reg} (h : r ∉ regs) : s.setRegUnless regs r v = s.setReg r v :=
  if_neg h

theorem State.seq_setRegUnless (regs : List Reg) (n : Nat) :
    (s.setRegUnless regs r v).seq n = (s.seq n).setRegUnless regs r v := by
  unfold State.setRegUnless
  split
  · rfl
  · exact s.seq_setReg r v n

/-- A register and Z, N written, then the advance. -/
theorem State.setRegZN_seq_setReg (q : Reg) (u : Byte) (n : Nat) :
    ((s.setReg r v).setRegZN q u).seq n = ((s.setRegZN q u).seq n).setRegUnless [q] r v := by
  have hwrite : (s.setReg r v).setRegZN q u = (s.setRegZN q u).setRegUnless [q] r v := by
    rw [State.setRegZN_setReg, State.setRegUnless]
    simp only [List.mem_singleton, eq_comm]
  rw [hwrite, State.seq_setRegUnless]

theorem State.putSum_seq_setReg (u : Sum) (n : Nat) :
    ((s.setReg r v).putSum u).seq n = ((s.putSum u).seq n).setRegUnless [.a] r v := by
  have hwrite : (s.setReg r v).putSum u = (s.putSum u).setRegUnless [.a] r v := by
    rw [State.putSum_setReg, State.setRegUnless]
    simp only [List.mem_singleton]
  rw [hwrite, State.seq_setRegUnless]

theorem State.reg_setReg_of_ne {q : Reg} (h : r ≠ q) : (s.setReg r v).reg q = s.reg q :=
  (s.reg_setReg r q v).trans (if_neg h.symm)

theorem State.load_setReg (q : Reg) {src : Src} (hvalue : src.value (s.setReg r v) = src.value s) :
    (s.setReg r v).load q src = (s.load q src).setRegUnless [q] r v := by
  rw [State.load, hvalue, State.setRegZN_seq_setReg, State.load]

theorem State.transfer_setReg {src : Reg} (dst : Reg) (h : r ≠ src) :
    (s.setReg r v).transfer src dst = (s.transfer src dst).setRegUnless [dst] r v := by
  rw [State.transfer, State.reg_setReg_of_ne h, State.setRegZN_seq_setReg, State.transfer]

theorem State.store_setReg {q : Reg} {dst : MemOperand} (h : r ≠ q) (hea : dst.ea (s.setReg r v) = dst.ea s) :
    (s.setReg r v).store q dst = (s.store q dst).setReg r v := by
  rw [State.store, hea, State.reg_setReg_of_ne h, State.write_setReg, State.seq_setReg, State.store]

theorem State.compare_setReg {q : Reg} {src : Src} (h : r ≠ q) (hvalue : src.value (s.setReg r v) = src.value s) :
    (s.setReg r v).compare q src = (s.compare q src).setReg r v := by
  rw [State.compare, hvalue, State.reg_setReg_of_ne h, State.putComparison_setReg, State.seq_setReg, State.compare]

theorem State.modify_setReg {m : MemOperand} (f : Byte → Byte) (hea : m.ea (s.setReg r v) = m.ea s) :
    (s.setReg r v).modify m f = (s.modify m f).setReg r v := by
  rw [State.modify, hea, State.read_setReg, State.write_setReg, State.setZN_setReg, State.seq_setReg, State.modify]

theorem State.word16_setReg (p : Addr) : (s.setReg r v).word16 p = s.word16 p := by
  simp [State.word16]

/-! The stack operations read SP alone. -/

theorem State.push_setReg (h : r ≠ .sp) (u : Byte) : (s.setReg r v).push u = (s.push u).setReg r v := by
  cases r with
  | sp => exact absurd rfl h
  | a | x | y => rfl

theorem State.push16_setReg (h : r ≠ .sp) (w : Addr) : (s.setReg r v).push16 w = (s.push16 w).setReg r v := by
  rw [State.push16, State.push_setReg h, State.push_setReg h, State.push16]

theorem State.sp_setReg (h : r ≠ .sp) : (s.setReg r v).sp = s.sp := State.reg_setReg_of_ne (q := .sp) h

theorem State.popValue_setReg (h : r ≠ .sp) : (s.setReg r v).popValue = s.popValue := by
  rw [State.popValue, State.sp_setReg h, State.read_setReg, State.popValue]

theorem State.pop16Value_setReg (h : r ≠ .sp) : (s.setReg r v).pop16Value = s.pop16Value :=
  State.pop16Value_congr (State.sp_setReg h) (fun _ => s.read_setReg r v _)

theorem State.popState_setReg (h : r ≠ .sp) : (s.setReg r v).popState = s.popState.setReg r v := by
  unfold State.popState State.clearPopped
  rw [State.sp_setReg h, State.setReg_comm _ _ _ _ _ h.symm]
  simp only [State.setReg_cfg]
  split
  · exact State.write_setReg _ r v _ _
  · rfl

theorem State.pop16State_setReg (h : r ≠ .sp) : (s.setReg r v).pop16State = s.pop16State.setReg r v := by
  rw [State.pop16State, State.popState_setReg h, State.popState_setReg h, State.pop16State]

/-! ### Every instruction -/

theorem Reg.ne_of_readBy {q : Reg} {i : Instr} (h : r.readBy i = false) (hq : q.readBy i = true) : r ≠ q := by
  rintro rfl
  rw [hq] at h
  cases h

/-- A register an instruction does not read does not move the byte it addresses. -/
theorem ea_setReg_of_not_read {i : Instr} {m : MemOperand} (h : r.readBy i = false) (hmode : i.mode = m.mode) :
    m.ea (s.setReg r v) = m.ea s := by
  obtain ⟨hx, hy⟩ := not_indexed i r h
  rw [hmode] at hx hy
  exact m.ea_setReg s r v hx hy

theorem value_setReg_of_not_read {i : Instr} {src : Src} (h : r.readBy i = false) (hmode : i.mode = src.mode) :
    src.value (s.setReg r v) = src.value s := by
  obtain ⟨hx, hy⟩ := not_indexed i r h
  rw [hmode] at hx hy
  exact src.value_setReg s r v hx hy

theorem State.eq_setRegUnless_nil {s t : State} (h : s = t.setReg r v) : s = t.setRegUnless [] r v :=
  h.trans (State.setRegUnless_of_not_mem List.not_mem_nil).symm

theorem State.eq_setRegUnless_singleton {s t : State} {q : Reg} (hne : r ≠ q) (h : s = t.setReg r v) :
    s = t.setRegUnless [q] r v :=
  h.trans (State.setRegUnless_of_not_mem (List.mem_singleton.not.mpr hne)).symm

theorem State.a_setReg (h : r ≠ .a) : (s.setReg r v).a = s.a := State.reg_setReg_of_ne (q := .a) h

/-- INX, INY and DEX: a register written from itself. -/
theorem State.update_setReg {q : Reg} (f : Byte → Byte) (n : Nat) (h : r ≠ q) :
    ((s.setReg r v).setRegZN q (f ((s.setReg r v).reg q))).seq n =
      ((s.setRegZN q (f (s.reg q))).seq n).setRegUnless [q] r v := by
  rw [State.reg_setReg_of_ne h, State.setRegZN_seq_setReg]

/-- ADC and SBC: a function of A, the operand and the carry, written to A and the flags. -/
theorem State.sum_setReg {src : Src} (f : Byte → Byte → Bool → Sum) (h : r ≠ .a)
    (hvalue : src.value (s.setReg r v) = src.value s) :
    let u := s.setReg r v
    (u.putSum (f u.a (src.value u) (u.flag .c))).seq src.mode.count =
      ((s.putSum (f s.a (src.value s) (s.flag .c))).seq src.mode.count).setRegUnless [.a] r v := by
  intro u
  rw [State.a_setReg h, hvalue, State.flag_setReg, State.putSum_seq_setReg]

theorem after_and_setReg {src : Src} (h : r ≠ .a) (hvalue : src.value (s.setReg r v) = src.value s) :
    after (.and src) (s.setReg r v) = (after (.and src) s).setRegUnless [.a] r v := by
  show ((s.setReg r v).setRegZN .a (and8 (s.setReg r v).a (src.value (s.setReg r v)))).seq src.mode.count = _
  rw [State.a_setReg h, hvalue, State.setRegZN_seq_setReg]
  rfl

theorem after_bit_setReg {m : MemOperand} (h : r ≠ .a) (hea : m.ea (s.setReg r v) = m.ea s) :
    after (.bit m) (s.setReg r v) = (after (.bit m) s).setReg r v := by
  simp only [after, exec, execBit, State.a_setReg h, hea, State.read_setReg, State.setFlag_setReg, State.seq_setReg]

theorem after_lsrA_setReg (h : r ≠ .a) : after .lsrA (s.setReg r v) = (after .lsrA s).setReg r v := by
  simp only [after, exec, execLsrA, State.a_setReg h, State.setReg_comm _ r .a _ _ h.symm, State.setFlag_setReg,
    State.setZN_setReg, State.seq_setReg]

theorem after_lsr_setReg {m : MemOperand} (hea : m.ea (s.setReg r v) = m.ea s) :
    after (.lsr m) (s.setReg r v) = (after (.lsr m) s).setReg r v := by
  simp only [after, exec, execLsr, hea, State.read_setReg, State.write_setReg, State.setFlag_setReg,
    State.setZN_setReg, State.seq_setReg]

theorem after_jsr_setReg (h : r ≠ .sp) (w : Addr) : after (.jsr w) (s.setReg r v) = (after (.jsr w) s).setReg r v := by
  simp only [after, exec, execJsr, State.setReg_pc, State.push16_setReg h, State.jump_setReg]

theorem after_pha_setReg (ha : r ≠ .a) (h : r ≠ .sp) : after .pha (s.setReg r v) = (after .pha s).setReg r v := by
  simp only [after, exec, execPha, State.a_setReg ha, State.push_setReg h, State.seq_setReg]

/-- PLA writes A without reading it; SP it reads. -/
theorem after_pla_setReg (h : r ≠ .sp) : after .pla (s.setReg r v) = (after .pla s).setRegUnless [.a, .sp] r v := by
  have hlisted : (after .pla s).setRegUnless [.a, .sp] r v = (after .pla s).setRegUnless [.a] r v := by
    simp [State.setRegUnless, h]
  rw [hlisted]
  simp only [after, exec, execPla, State.popState_setReg h, State.popValue_setReg h, State.setRegZN_seq_setReg]

theorem after_rts_setReg (h : r ≠ .sp) : after .rts (s.setReg r v) = (after .rts s).setReg r v := by
  simp only [after, exec, execRts, State.pop16State_setReg h, State.pop16Value_setReg h, State.jump_setReg]

theorem after_brk_setReg (h : r ≠ .sp) : after .brk (s.setReg r v) = (after .brk s).setReg r v := by
  simp only [after, exec, execBrk, State.enterBreakpoint, State.setReg_pc, State.readP_setReg, State.push16_setReg h,
    State.push_setReg h, State.setFlag_setReg, State.seq_setReg]

/-- Writing a register first and then running an instruction that does not read it is running the instruction and then
writing the register, but for the registers the instruction changes. -/
theorem after_setReg {i : Instr} (h : r.readBy i = false) :
    after i (s.setReg r v) = (after i s).setRegUnless (changedRegs i) r v := by
  cases i with
  | lda src | ldx src | ldy src => exact State.load_setReg _ (value_setReg_of_not_read h rfl)
  | sta dst | stx dst | sty dst =>
    exact State.eq_setRegUnless_nil (State.store_setReg (Reg.ne_of_readBy h rfl) (ea_setReg_of_not_read h rfl))
  | tax | txa => exact State.transfer_setReg _ (Reg.ne_of_readBy h rfl)
  | inx | iny => exact State.update_setReg inc8 0 (Reg.ne_of_readBy h rfl)
  | dex => exact State.update_setReg dec8 0 (Reg.ne_of_readBy h rfl)
  | inc m => exact State.eq_setRegUnless_nil (State.modify_setReg inc8 (ea_setReg_of_not_read h rfl))
  | dec m => exact State.eq_setRegUnless_nil (State.modify_setReg dec8 (ea_setReg_of_not_read h rfl))
  | and src => exact after_and_setReg (Reg.ne_of_readBy h rfl) (value_setReg_of_not_read h rfl)
  | bit m =>
    exact State.eq_setRegUnless_nil (after_bit_setReg (Reg.ne_of_readBy h rfl) (ea_setReg_of_not_read h rfl))
  | lsrA =>
    have hne : r ≠ .a := Reg.ne_of_readBy h rfl
    exact State.eq_setRegUnless_singleton hne (after_lsrA_setReg hne)
  | lsr m => exact State.eq_setRegUnless_nil (after_lsr_setReg (ea_setReg_of_not_read h rfl))
  | adc src => exact State.sum_setReg add8 (Reg.ne_of_readBy h rfl) (value_setReg_of_not_read h rfl)
  | sbc src => exact State.sum_setReg sub8 (Reg.ne_of_readBy h rfl) (value_setReg_of_not_read h rfl)
  | cmp src | cpx src | cpy src =>
    exact State.eq_setRegUnless_nil (State.compare_setReg (Reg.ne_of_readBy h rfl) (value_setReg_of_not_read h rfl))
  | bcc d | bcs d | beq d | bne d | bpl d =>
    exact State.eq_setRegUnless_nil (by simp only [after, exec, execBcc, execBcs, execBeq, execBne, execBpl,
      State.flag_setReg, State.branch_setReg])
  | jmp w => exact State.eq_setRegUnless_nil (s.jump_setReg r v w)
  | jmpInd ptr =>
    exact State.eq_setRegUnless_nil (by simp only [after, exec, execJmpInd, State.word16_setReg, State.jump_setReg])
  | jsr w =>
    have hne : r ≠ .sp := Reg.ne_of_readBy h rfl
    exact State.eq_setRegUnless_singleton hne (after_jsr_setReg hne w)
  | rts =>
    have hne : r ≠ .sp := Reg.ne_of_readBy h rfl
    exact State.eq_setRegUnless_singleton hne (after_rts_setReg hne)
  | pha =>
    have hne : r ≠ .sp := Reg.ne_of_readBy h rfl
    exact State.eq_setRegUnless_singleton hne (after_pha_setReg (Reg.ne_of_readBy h rfl) hne)
  | pla => exact after_pla_setReg (Reg.ne_of_readBy h rfl)
  | sec | clc =>
    exact State.eq_setRegUnless_nil (by simp only [after, exec, execSec, execClc, State.setFlag_setReg,
      State.seq_setReg])
  | nop => exact State.eq_setRegUnless_nil (s.seq_setReg r v 0)
  | brk =>
    have hne : r ≠ .sp := Reg.ne_of_readBy h rfl
    exact State.eq_setRegUnless_singleton hne (after_brk_setReg hne)
  | unknown op =>
    exact State.eq_setRegUnless_nil (by simp only [after, exec, execUnknown, State.setReg_pc, State.emit_setReg,
      State.seq_setReg])

end

/-- The register tables list as written exactly the registers an instruction changes. -/
theorem mem_changedRegs_iff (i : Instr) (r : Reg) : r ∈ changedRegs i ↔ r.writtenBy i = true := by
  constructor
  · exact fun h => Bool.of_not_eq_false (fun hunwritten => not_changedRegs i r hunwritten h)
  · cases i <;> cases r <;> simp [changedRegs, Reg.writtenBy, Instr.op]

/-- Settles O42: `after_setReg`, with the registers an instruction changes read off the tables. -/
theorem onlyTheListedInstructionsReadARegister : Obligations.OnlyTheListedInstructionsReadARegister := by
  intro r v i s hunread
  refine ⟨after i s, exec_eq_after i s, ?_⟩
  rw [exec_eq_after, after_setReg hunread, State.setRegUnless]
  simp only [mem_changedRegs_iff]

/-- The instructions that read SP are the five that use the stack. -/
theorem sp_not_readBy {i : Instr} (h : i ∉ [Instr.rts, .pha, .pla, .brk]) (hjsr : ∀ w, i ≠ .jsr w) :
    Reg.sp.readBy i = false := by
  cases i with
  | jsr w => exact absurd rfl (hjsr w)
  | rts | pha | pla | brk => simp at h
  | _ => rfl

/-- Settles O43: for an instruction but the five, SP is neither changed (`after_frame`) nor read (`after_setReg`). -/
theorem onlyTheStackInstructionsUseSp : Obligations.OnlyTheStackInstructionsUseSp := by
  refine ⟨fun sp => ⟨stackAddr_toNat sp, ?_⟩, fun i s v h hjsr => ?_⟩
  · have hsp := sp.isLt
    rw [stackAddr_toNat]
    omega
  · have hunread := sp_not_readBy h hjsr
    have hunwritten : Reg.sp.writtenBy i = false := hunread
    have hunchanged := not_changedRegs i .sp hunwritten
    refine ⟨after i s, exec_eq_after i s, (after_frame i s).regs .sp hunchanged, ?_⟩
    rw [exec_eq_after, after_setReg hunread, State.setRegUnless_of_not_mem hunchanged]

/-! ### A flag that steers nothing -/

namespace AgreeBut

section
variable {f : Flag} {t u : State} (h : AgreeBut f t u)
include h

theorem a : u.a = t.a := h.regs .a

theorem x : u.x = t.x := h.regs .x

theorem y : u.y = t.y := h.regs .y

/-- Operand forms read no flag. -/
theorem ea (m : MemOperand) : m.ea u = m.ea t := by
  cases m <;> simp only [MemOperand.ea, State.wordZP, h.x, h.y, h.memory]

theorem value (src : Src) : src.value u = src.value t := by
  cases src with
  | imm v => rfl
  | mem m => rw [Src.value, h.ea, h.memory, Src.value]

theorem word16 (p : Addr) : u.word16 p = t.word16 p := by
  rw [State.word16, h.memory, h.memory, State.word16]

theorem setRegZN_seq {v v' : Byte} (hv : v' = v) (r : Reg) (n : Nat) :
    AgreeBut f ((t.setRegZN r v).seq n) ((u.setRegZN r v').seq n) := by
  rw [hv]
  exact ((h.setReg r v).setZN v).seq n

theorem putSum_seq {k k' : Sum} (hk : k' = k) (n : Nat) : AgreeBut f ((t.putSum k).seq n) ((u.putSum k').seq n) := by
  rw [hk]
  exact ((((h.setReg .a k.r).setFlag .c k.c).setFlag .v k.v).setZN k.r).seq n

theorem branch_of_eq {c c' : Bool} (hc : c' = c) (d : Byte) : AgreeBut f (t.branch c d) (u.branch c' d) := by
  rw [hc]
  exact h.branch c d

theorem jump_of_eq {w w' : Addr} (hw : w' = w) : AgreeBut f (t.jump w) (u.jump w') := by
  rw [hw]
  exact h.setPC w

theorem store (r : Reg) (dst : MemOperand) : AgreeBut f (t.store r dst) (u.store r dst) := by
  rw [State.store, State.store, h.ea, h.regs]
  exact (h.write _ _).seq _

theorem compare (r : Reg) (src : Src) : AgreeBut f (t.compare r src) (u.compare r src) := by
  rw [State.compare, State.compare, h.regs, h.value]
  exact (((h.setFlag _ _).setFlag _ _).setFlag _ _).seq _

theorem modify (m : MemOperand) (g : Byte → Byte) : AgreeBut f (t.modify m g) (u.modify m g) := by
  rw [State.modify, State.modify, h.ea, h.memory]
  exact ((h.write _ _).setZN _).seq _

theorem bitTest (m : MemOperand) : AgreeBut f (after (.bit m) t) (after (.bit m) u) := by
  simp only [after, exec, execBit, h.a, h.ea, h.memory]
  exact (((h.setFlag _ _).setFlag _ _).setFlag _ _).seq _

theorem lsrA : AgreeBut f (after .lsrA t) (after .lsrA u) := by
  simp only [after, exec, execLsrA, h.a]
  exact (((h.setReg _ _).setFlag _ _).setZN _).seq _

theorem lsrMem (m : MemOperand) : AgreeBut f (after (.lsr m) t) (after (.lsr m) u) := by
  simp only [after, exec, execLsr, h.ea, h.memory]
  exact (((h.write _ _).setFlag _ _).setZN _).seq _

theorem push16 (w : Addr) : AgreeBut f (t.push16 w) (u.push16 w) := (h.push _).push _

theorem jsr (w : Addr) : AgreeBut f (after (.jsr w) t) (after (.jsr w) u) := by
  simp only [after, exec, execJsr, h.pc]
  exact (h.push16 _).jump_of_eq rfl

theorem pha : AgreeBut f (after .pha t) (after .pha u) := by
  simp only [after, exec, execPha, h.a]
  exact (h.push _).seq 0

theorem unknown (op : Byte) : AgreeBut f (after (.unknown op) t) (after (.unknown op) u) := by
  simp only [after, exec, execUnknown, h.pc]
  exact (h.emit _).seq 0

/-- Every instruction but BRK, which pushes P, keeps the agreement: the flags that steer one are C, Z and N. -/
theorem after_instr {i : Instr} (hbrk : i ≠ .brk) (hf : f ∉ [Flag.c, .z, .n]) :
    AgreeBut f (after i t) (after i u) := by
  have hflags : ∀ g ∈ [Flag.c, .z, .n], u.flag g = t.flag g := fun g hg => h.flags g (ne_of_mem_of_not_mem hg hf)
  have hcarry : u.flag .c = t.flag .c := hflags .c (by decide)
  have hzero : u.flag .z = t.flag .z := hflags .z (by decide)
  have hnegative : u.flag .n = t.flag .n := hflags .n (by decide)
  cases i with
  | lda src | ldx src | ldy src => exact h.setRegZN_seq (h.value src) _ _
  | sta dst | stx dst | sty dst => exact h.store _ dst
  | tax => exact h.setRegZN_seq h.a .x 0
  | txa => exact h.setRegZN_seq h.x .a 0
  | inx => exact h.setRegZN_seq (congrArg inc8 h.x) .x 0
  | iny => exact h.setRegZN_seq (congrArg inc8 h.y) .y 0
  | dex => exact h.setRegZN_seq (congrArg dec8 h.x) .x 0
  | inc m | dec m => exact h.modify m _
  | and src => exact h.setRegZN_seq (congrArg₂ and8 h.a (h.value src)) .a _
  | bit m => exact h.bitTest m
  | lsrA => exact h.lsrA
  | lsr m => exact h.lsrMem m
  | adc src => exact h.putSum_seq (by rw [h.a, h.value, hcarry]) _
  | sbc src => exact h.putSum_seq (by rw [h.a, h.value, hcarry]) _
  | cmp src | cpx src | cpy src => exact h.compare _ src
  | bcc d => exact h.branch_of_eq (congrArg not hcarry) d
  | bcs d => exact h.branch_of_eq hcarry d
  | beq d => exact h.branch_of_eq hzero d
  | bne d => exact h.branch_of_eq (congrArg not hzero) d
  | bpl d => exact h.branch_of_eq (congrArg not hnegative) d
  | jmp w => exact h.jump_of_eq rfl
  | jmpInd ptr => exact h.jump_of_eq (h.word16 ptr)
  | jsr w => exact h.jsr w
  | rts => exact h.popState.popState.jump_of_eq (congrArg (· + 1) (State.pop16Value_congr h.sp h.memory))
  | pha => exact h.pha
  | pla => exact h.popState.setRegZN_seq h.popValue .a 0
  | sec | clc => exact (h.setFlag .c _).seq 0
  | nop => exact h.seq 0
  | brk => exact absurd rfl hbrk
  | unknown op => exact h.unknown op

end

end AgreeBut

/-- BRK writes B and no other flag. -/
theorem flag_after_brk (s : State) (g : Flag) : (after .brk s).flag g = if g = .b then true else s.flag g :=
  State.flag_setFlag _ .b g true

theorem steers_nothing : ∀ f ∈ [Flag.i, .d, .v], f ∉ [Flag.c, .z, .n] := by decide

/-- Settles O45: after BRK by its own registers and flags, after any other instruction by `AgreeBut.after_instr`. -/
theorem interruptDecimalAndOverflowSteerNothing : Obligations.InterruptDecimalAndOverflowSteerNothing := by
  intro f b i s hf
  refine ⟨after i s, after i (s.setFlag f b), exec_eq_after i s, exec_eq_after i _, ?_⟩
  have hagree := s.agreeBut_setFlag f b
  by_cases hbrk : i = .brk
  · subst hbrk
    refine ⟨rfl, rfl, fun r => ?regs, fun g hg => ?flags, fun hne => absurd rfl hne⟩
    case regs => cases r <;> rfl
    case flags => rw [flag_after_brk, flag_after_brk, hagree.flags g hg]
  · have h := hagree.after_instr hbrk (steers_nothing f hf)
    exact ⟨h.pc, h.diags, h.regs, h.flags, fun _ => h.memory⟩

end Sys2Proof.Machine
end

section
/-! Proofs on the host's events, the status machine and the invariant (40_core_tick.md section 2, 60_exceptions.md
section 2). What an event can do is said once, in `Delivered`; the statements about events are case analyses of it. -/

namespace Sys2Proof.Machine

/-! ### What an event can do -/

/-- The event does nothing in the state's status (60_exceptions.md R307's last row, R331; 40_core_tick.md R129). -/
def Ignored (s : State) : HostEvent → Prop
  | .reset => False
  | .load | .start => s.status ≠ .idle
  | .tick => s.status ≠ .running
  | .resume => s.status ≠ .breakpointed
  | .stop => True

/-- Everything an event that answers a next state can do, row by row of R307. -/
inductive Delivered (s : State) : HostEvent → State → Prop where
  | reset : Delivered s .reset (resetSignal s)
  | load {m : Memory} (idle : s.status = .idle) (loaded : portLoad s.mem s.cfg.progBase.toNat s.cfg.image = .ok m) :
    Delivered s .load { s with mem := m }
  | start (idle : s.status = .idle) : Delivered s .start (s.setStatus .running).checkEnd
  | tick (running : s.status = .running) : Delivered s .tick (after (s.instrAt s.pc) s).endTick
  | resume (breakpointed : s.status = .breakpointed) : Delivered s .resume s.leaveBreakpoint.checkEnd
  | ignored {e : HostEvent} (ignored : Ignored s e) : Delivered s e s

theorem hostEvent_start_of_idle {s : State} (h : s.status = .idle) :
    hostEvent .start s = .next (s.setStatus .running).checkEnd := congrArg _ (if_pos h)

theorem hostEvent_resume_of_breakpointed {s : State} (h : s.status = .breakpointed) :
    hostEvent .resume s = .next s.leaveBreakpoint.checkEnd := congrArg _ (if_pos h)

/-- An ignored event changes nothing. -/
theorem hostEvent_of_ignored {s : State} {e : HostEvent} (h : Ignored s e) : hostEvent e s = .next s := by
  cases e with
  | reset => exact h.elim
  | load => exact if_neg h
  | start => exact congrArg _ (if_neg h)
  | tick => exact (tick_eq s).trans (congrArg _ (if_neg h))
  | resume => exact congrArg _ (if_neg h)
  | stop => rfl

theorem launchFits_iff (c : Config) :
    launchFits c = true ↔ c.progBase.toNat + c.image.length ≤ 0x10000 ∧ c.progEnd ≤ 0x10000 := by
  simp [launchFits]

/-- A load while Idle, of a launch that fits: the loader writes every byte (`portLoad_ok`), and memory alone changes. -/
theorem hostEvent_load_of_fits {s : State} (hidle : s.status = .idle) (hfits : launchFits s.cfg = true) :
    ∃ m, portLoad s.mem s.cfg.progBase.toNat s.cfg.image = .ok m ∧ hostEvent .load s = .next { s with mem := m } ∧
      ∀ a : Nat, m.get a =
        if s.cfg.progBase.toNat ≤ a ∧ a < s.cfg.progBase.toNat + s.cfg.image.length then
          s.cfg.image.getD (a - s.cfg.progBase.toNat) 0x00
        else s.mem.get a := by
  obtain ⟨m, hload, hget⟩ := portLoad_ok s.mem s.cfg.progBase.toNat s.cfg.image ((launchFits_iff s.cfg).mp hfits).1
  refine ⟨m, hload, ?_, hget⟩
  show loadSignal s = _
  rw [loadSignal, if_pos hidle, if_pos hfits, hload]

theorem hostEvent_load_of_not_fits {s : State} (hidle : s.status = .idle) (hfits : ¬launchFits s.cfg = true) :
    hostEvent .load s = .refused .launchOutOfRange := (if_pos hidle).trans (if_neg hfits)

/-- The inversion of `hostEvent`. -/
theorem delivered_of_hostEvent {e : HostEvent} {s t : State} (h : hostEvent e s = .next t) : Delivered s e t := by
  by_cases hignored : Ignored s e
  · rw [hostEvent_of_ignored hignored] at h
    cases h
    exact .ignored hignored
  cases e with
  | reset =>
    cases h
    exact .reset
  | load =>
    have hidle : s.status = .idle := not_not.mp hignored
    by_cases hfits : launchFits s.cfg = true
    · obtain ⟨m, hload, hevent, -⟩ := hostEvent_load_of_fits hidle hfits
      rw [hevent] at h
      cases h
      exact .load hidle hload
    · rw [hostEvent_load_of_not_fits hidle hfits] at h
      cases h
  | start =>
    rw [hostEvent_start_of_idle (not_not.mp hignored)] at h
    cases h
    exact .start (not_not.mp hignored)
  | tick =>
    rw [tick_of_running (not_not.mp hignored)] at h
    cases h
    exact .tick (not_not.mp hignored)
  | resume =>
    rw [hostEvent_resume_of_breakpointed (not_not.mp hignored)] at h
    cases h
    exact .resume (not_not.mp hignored)
  | stop => exact absurd trivial hignored

/-! ### The end check and the status -/

theorem State.flag_leaveBreakpoint (s : State) (g : Flag) :
    s.leaveBreakpoint.flag g = if g = .b then false else s.flag g :=
  s.flag_setFlag .b g false

theorem State.reg_leaveBreakpoint (s : State) (r : Reg) : s.leaveBreakpoint.reg r = s.reg r := s.reg_setFlag .b false r

theorem State.checkEnd_of_below {s : State} (h : s.belowEnd = true) : s.checkEnd = s := if_pos h

theorem State.checkEnd_of_not_below {s : State} (h : ¬s.belowEnd = true) :
    s.checkEnd = { s with status := .halted, diags := s.diags ++ [.endOfProgram s.pc] } := if_neg h

/-- With B clear, the end of a tick is the end check. -/
theorem State.endTick_of_not_flag_b {s : State} (hb : ¬s.flag .b = true) : s.endTick = s.checkEnd := if_neg hb

/-- The status after the end check of a Running state: the test on the next instruction's bytes. -/
theorem State.checkEnd_status {s : State} (h : s.status = .running) :
    s.checkEnd.status = if s.checkEnd.belowEnd then .running else .halted := by
  rw [State.belowEnd_checkEnd]
  obtain ⟨hbelow, hcheck⟩ | ⟨hbelow, hcheck⟩ := s.checkEnd_cases <;> simp [hbelow, hcheck, h]

/-- The end check emits its diagnostic exactly where it halts. -/
theorem State.checkEnd_diags {s : State} (h : s.status ≠ .halted) :
    s.checkEnd.diags = s.diags ++ (if s.checkEnd.status = .halted then [.endOfProgram s.pc] else []) := by
  obtain ⟨-, hcheck⟩ | ⟨-, hcheck⟩ := s.checkEnd_cases <;> simp [hcheck, h]

theorem State.getLast?_diags_checkEnd {s : State} (h : s.status ≠ .halted) (hhalted : s.checkEnd.status = .halted) :
    s.checkEnd.diags.getLast? = some (.endOfProgram s.checkEnd.pc) := by
  rw [State.checkEnd_diags h, if_pos hhalted, State.checkEnd_pc, List.getLast?_concat]

/-- A tick that ends Halted ended in the end check. -/
theorem State.endTick_of_halted {s : State} (h : s.endTick.status = .halted) : s.endTick = s.checkEnd := by
  obtain ⟨-, hend⟩ | ⟨-, hend⟩ := s.endTick_cases
  · rw [hend] at h
    cases h
  · exact hend

/-- Settles O50: the end check is the only way an event makes a machine Halted, and in Halted every event but reset is
ignored. -/
theorem haltingIsTerminal : Obligations.HaltingIsTerminal := by
  refine ⟨fun s => ?check, fun e s t h hbefore hafter => ?last, fun e s hhalted he => ?terminal⟩
  case check =>
    split
    · next hbelow => exact State.checkEnd_of_below (s.belowEnd_iff.mpr hbelow)
    · next hbelow => exact State.checkEnd_of_not_below (hbelow ∘ s.belowEnd_iff.mp)
  case last =>
    cases delivered_of_hostEvent h with
    | reset => cases hafter
    | load => exact absurd hafter hbefore
    | start => exact State.getLast?_diags_checkEnd Status.noConfusion hafter
    | tick =>
      have hend := State.endTick_of_halted hafter
      rw [hend] at hafter ⊢
      exact State.getLast?_diags_checkEnd (by rwa [after_status]) hafter
    | resume => exact State.getLast?_diags_checkEnd Status.noConfusion hafter
    | ignored => exact absurd hafter hbefore
  case terminal =>
    apply hostEvent_of_ignored
    cases e with
    | reset => exact absurd rfl he
    | load | start | tick | resume => simp [Ignored, hhalted]
    | stop => trivial

/-- The status after a tick that began Running with B clear. -/
theorem endTick_after_status {i : Instr} {s : State} (hrun : s.status = .running) (hb : s.flag .b = false) :
    (after i s).endTick.status =
      if i = .brk then .breakpointed else if (after i s).endTick.belowEnd then .running else .halted := by
  split
  · next hbrk => exact (endTick_after_status_breakpointed_iff hrun hb).mpr hbrk
  · next hbrk =>
    have hclear : ¬(after i s).flag .b = true := by simp [after_flag_b, hb, hbrk]
    rw [State.endTick_of_not_flag_b hclear]
    exact State.checkEnd_status ((after_status i s).trans hrun)

/-- Settles O52: each row is a case of `Delivered`, and the rows that keep the status are the ignored events and the
load. -/
theorem statusFollowsTheStateDiagram : Obligations.StatusFollowsTheStateDiagram := by
  intro s t e hb h
  cases delivered_of_hostEvent h with
  | reset => rfl
  | load idle => rw [idle]
  | start idle =>
    rw [idle]
    exact State.checkEnd_status rfl
  | tick running =>
    rw [running]
    exact endTick_after_status running (hb running)
  | resume breakpointed =>
    rw [breakpointed]
    exact State.checkEnd_status rfl
  | ignored hignored =>
    cases e with
    | reset => exact hignored.elim
    | load | stop => cases s.status <;> rfl
    | start | tick | resume => cases hst : s.status <;> simp [Ignored, hst] at hignored ⊢

/-- Settles O53: start and resume are the write of the status, resume's also of B, and the end check, which keeps P, PC,
memory and the registers. -/
theorem startAndResumeWriteOnlyTheStatusAndB : Obligations.StartAndResumeWriteOnlyTheStatusAndB := by
  intro s
  refine ⟨hostEvent_of_ignored (e := .start), hostEvent_of_ignored (e := .resume), fun hidle => ?start,
    fun hbreakpointed => ?resume⟩
  case start =>
    refine ⟨_, hostEvent_start_of_idle hidle, State.checkEnd_p _, State.checkEnd_pc _, State.checkEnd_mem _,
      fun r => ?_, State.checkEnd_diags Status.noConfusion⟩
    rw [State.reg_checkEnd, State.reg_setStatus]
  case resume =>
    refine ⟨_, hostEvent_resume_of_breakpointed hbreakpointed, ?_, fun f hf => ?_, State.checkEnd_pc _,
      State.checkEnd_mem _, fun r => ?_, State.checkEnd_diags Status.noConfusion⟩
    · rw [State.flag_checkEnd, State.flag_leaveBreakpoint, if_pos rfl]
    · rw [State.flag_checkEnd, State.flag_leaveBreakpoint, if_neg hf]
    · rw [State.reg_checkEnd, State.reg_leaveBreakpoint]

/-! ### Steps -/

theorem step_of_pending_nil {s : State} (h : s.pending = []) : step s = hostEvent .tick s := by
  rw [step, deliver, h]
  rfl

theorem step_of_pending_cons {s : State} {e : HostEvent} {es : List HostEvent} (h : s.pending = e :: es) :
    step s = hostEvent e { s with pending := es } := by
  rw [step, deliver, h]

/-- No event changes a launch parameter. -/
theorem Delivered.cfg {s t : State} {e : HostEvent} (h : Delivered s e t) : t.cfg = s.cfg := by
  cases h with
  | reset | load | ignored => rfl
  | start => exact State.checkEnd_cfg _
  | tick => rw [State.endTick_cfg, after_cfg]
  | resume => exact State.checkEnd_cfg _

/-- No event changes the events still to come. -/
theorem Delivered.pending {s t : State} {e : HostEvent} (h : Delivered s e t) : t.pending = s.pending := by
  cases h with
  | reset | load | ignored => rfl
  | start => exact State.checkEnd_pending _
  | tick => rw [State.endTick_pending, after_pending]
  | resume => exact State.checkEnd_pending _

/-- Settles O55: the step is the oldest event's, or a tick's, and neither changes the parameters or the queue. -/
theorem stepsDeliverEventsAndKeepTheParameters : Obligations.StepsDeliverEventsAndKeepTheParameters := by
  intro s t h
  cases hpending : s.pending with
  | nil =>
    rw [step_of_pending_nil hpending] at h
    have hd := delivered_of_hostEvent h
    exact ⟨hd.cfg, hd.pending.trans hpending, h⟩
  | cons e es =>
    rw [step_of_pending_cons hpending] at h
    have hd := delivered_of_hostEvent h
    exact ⟨hd.cfg, hd.pending, h⟩

/-- Under a launch that fits every event answers: the load is the only one that can be refused. -/
theorem hostEvent_answers {s : State} (hfits : launchFits s.cfg = true) (e : HostEvent) : Answers (hostEvent e s) := by
  cases e with
  | load =>
    by_cases hidle : s.status = .idle
    · obtain ⟨m, -, hevent, -⟩ := hostEvent_load_of_fits hidle hfits
      exact ⟨_, hevent⟩
    · exact ⟨s, hostEvent_of_ignored hidle⟩
  | tick => exact ⟨_, tick_eq s⟩
  | reset | start | resume | stop => exact ⟨_, rfl⟩

/-- Settles O56: a step is an event's, and each answers (`hostEvent_answers`). -/
theorem everyStepAnswers : Obligations.EveryStepAnswers := by
  intro s himage hend
  have hfits := (launchFits_iff s.cfg).mpr ⟨himage, hend⟩
  cases hpending : s.pending with
  | nil =>
    rw [step_of_pending_nil hpending]
    exact hostEvent_answers hfits .tick
  | cons e es =>
    rw [step_of_pending_cons hpending]
    exact hostEvent_answers (s := { s with pending := es }) hfits e

/-- Settles O49: the tick is ignored there. -/
theorem ticksOutsideRunningDoNothing : Obligations.TicksOutsideRunningDoNothing :=
  fun _ h => hostEvent_of_ignored (e := .tick) h

/-- Settles O48: the decoded instruction is the one at PC (`assemble_of_decode`), and the step is its tick. -/
theorem stepRunsTheDecodedInstruction : Obligations.StepRunsTheDecodedInstruction := by
  intro s i rest hrun hpending hdecode
  have hi : s.instrAt s.pc = i := assemble_of_decode _ _ _ i rest hdecode
  have hstep : step s = .next (after i s).endTick := by
    rw [step_of_pending_nil hpending, tick_of_running hrun, hi]
  refine ⟨after i s, exec_eq_after i s, ?_⟩
  rw [hstep]
  split
  · next hb => rw [State.endTick_of_flag_b hb]
  · next hb =>
    rw [State.endTick_of_not_flag_b hb]
    split
    · next hbelow => rw [State.checkEnd_of_below (State.belowEnd_iff _ |>.mpr hbelow)]
    · next hbelow => rw [State.checkEnd_of_not_below (hbelow ∘ (State.belowEnd_iff _).mp)]

/-- Settles O54: what an instruction emits is `emitted` (`after_frame`) and what it does to B is `after_flag_b`: UNKNOWN
alone emits, BRK alone sets B. -/
theorem theOpcodeFixesTheCondition : Obligations.TheOpcodeFixesTheCondition := by
  intro i s
  refine ⟨after i s, exec_eq_after i s, ?_⟩
  have hdiags := (after_frame i s).diags
  have hb := after_flag_b i s
  cases i with
  | unknown op => exact ⟨⟨op, hdiags⟩, hb⟩
  | _ => exact ⟨hdiags.trans (List.append_nil _), hb⟩

/-! ### Reset and load -/

/-- P after reset is bit 5 alone. -/
theorem State.readP_ofConfig (c : Config) : (State.ofConfig c).readP = 0x20 := by
  simp [State.readP, State.ofConfig]

/-- Every flag is clear after reset. -/
theorem State.flag_ofConfig (c : Config) (f : Flag) : (State.ofConfig c).flag f = false := by
  rw [State.flag, State.readP_ofConfig]
  cases f <;> decide

/-- Settles O57: reset is `State.ofConfig`, with the events still to come. -/
theorem resetLeavesTheResetState : Obligations.ResetLeavesTheResetState := by
  refine ⟨fun s => ⟨resetSignal s, rfl, rfl, rfl, rfl, rfl, State.readP_ofConfig s.cfg, rfl, rfl, rfl, rfl⟩, rfl,
    State.readP_ofConfig _, rfl, fun r => ?_, fun _ => rfl⟩
  cases r <;> rfl

/-- Settles O58: the loader's bytes are `hostEvent_load_of_fits`, and load and launch test the same bounds. -/
theorem loadPlacesTheImage : Obligations.LoadPlacesTheImage := by
  refine ⟨fun s hidle => ?load, fun c => ?launch⟩
  case load =>
    split
    · next hfits =>
      obtain ⟨m, -, hevent, hget⟩ := hostEvent_load_of_fits hidle ((launchFits_iff s.cfg).mpr hfits)
      exact ⟨_, hevent, rfl, hget⟩
    · next hfits => exact hostEvent_load_of_not_fits hidle (hfits ∘ (launchFits_iff s.cfg).mp)
  case launch =>
    split
    · next hfits => exact if_pos ((launchFits_iff c).mpr hfits)
    · next hfits => exact if_neg (hfits ∘ (launchFits_iff c).mp)

/-! ### The invariant -/

/-- The part of the invariant that does not speak of the status. -/
structure State.Sound (s : State) : Prop where
  memory : s.mem.wf
  initMem : s.cfg.initMem.wf
  bit5 : s.p.getLsbD 5 = true
  interruptDisable : s.flag .i = false
  decimal : s.flag .d = false

theorem State.Inv.sound {s : State} (h : s.Inv) : s.Sound :=
  ⟨h.memory, h.initMem, h.bit5, h.interruptDisable, h.decimal⟩

theorem State.bit5_setFlag_seq (s : State) (f : Flag) (b : Bool) (n : Nat) :
    ((s.setFlag f b).seq n).p.getLsbD 5 = true := s.bit5_setFlag f b

theorem State.bit5_setZN_seq (s : State) (r : Byte) (n : Nat) : ((s.setZN r).seq n).p.getLsbD 5 = true :=
  s.bit5_setZN r

/-- An instruction leaves bit 5 of the stored P set. -/
theorem after_bit5 (i : Instr) {s : State} (h : s.p.getLsbD 5 = true) : (after i s).p.getLsbD 5 = true := by
  cases i with
  | lda _ | ldx _ | ldy _ | tax | txa | inx | iny | dex | inc _ | dec _ | and _ | lsrA | lsr _ | adc _ | sbc _ | pla =>
    exact State.bit5_setZN_seq _ _ _
  | bit _ | cmp _ | cpx _ | cpy _ | sec | clc | brk => exact State.bit5_setFlag_seq _ _ _ _
  | bcc _ | bcs _ | beq _ | bne _ | bpl _ => exact (congrArg (·.getLsbD 5) (s.branch_p _ _)).trans h
  | rts => exact (congrArg (·.getLsbD 5) s.pop16State_p).trans h
  | sta _ | stx _ | sty _ | jmp _ | jmpInd _ | jsr _ | pha | nop | unknown _ => exact h

/-- Every instruction keeps it: I and D have no writer. -/
theorem State.Sound.after {s : State} (h : s.Sound) (i : Instr) : (after i s).Sound where
  memory := after_mem_wf i s h.memory
  initMem := (after_cfg i s).symm ▸ h.initMem
  bit5 := after_bit5 i h.bit5
  interruptDisable := ((after_frame i s).flags .i (not_changedFlags i .i rfl)).trans h.interruptDisable
  decimal := ((after_frame i s).flags .d (not_changedFlags i .d rfl)).trans h.decimal

theorem State.Sound.setStatus {s : State} (h : s.Sound) (st : Status) : (s.setStatus st).Sound :=
  ⟨h.memory, h.initMem, h.bit5, h.interruptDisable, h.decimal⟩

theorem State.Sound.leaveBreakpoint {s : State} (h : s.Sound) : s.leaveBreakpoint.Sound where
  memory := h.memory
  initMem := h.initMem
  bit5 := State.bit5_setFlag s .b false
  interruptDisable := (s.flag_leaveBreakpoint .i).trans h.interruptDisable
  decimal := (s.flag_leaveBreakpoint .d).trans h.decimal

/-- With B clear the end check of a Running state gives a state with the invariant: it stays Running only where the next
instruction is wholly below `PROG_END` (40_core_tick.md R132). -/
theorem State.Sound.inv_checkEnd {s : State} (h : s.Sound) (hrun : s.status = .running) (hb : s.flag .b = false) :
    s.checkEnd.Inv := by
  obtain ⟨hbelow, hcheck⟩ | ⟨-, hcheck⟩ := s.checkEnd_cases
  · rw [hcheck]
    exact { h with breakFlag := by simp [hb, hrun], below := fun _ => s.belowEnd_iff.mp hbelow }
  · rw [hcheck]
    have hbreak : s.flag .b = true ↔ Status.halted = .breakpointed := by simp [hb]
    exact { h with breakFlag := hbreak, below := Status.noConfusion }

/-- The end of a tick gives a state with the invariant, whatever the instruction did to B. -/
theorem State.Sound.inv_endTick {s : State} (h : s.Sound) (hrun : s.status = .running) : s.endTick.Inv := by
  obtain ⟨hb, hend⟩ | ⟨hb, hend⟩ := s.endTick_cases
  · rw [hend]
    have hbreak : s.flag .b = true ↔ Status.breakpointed = .breakpointed := by simp [hb]
    exact { h with breakFlag := hbreak, below := Status.noConfusion }
  · rw [hend]
    exact h.inv_checkEnd hrun hb

/-- Outside Breakpointed the invariant has B clear. -/
theorem State.Inv.flag_b {s : State} (h : s.Inv) (hst : s.status ≠ .breakpointed) : s.flag .b = false :=
  Bool.eq_false_iff.mpr (fun hb => hst (h.breakFlag.mp hb))

/-- The state after reset has the invariant where its parameters' `INIT_MEM` is canonical. -/
theorem State.inv_ofConfig {c : Config} (h : c.initMem.wf) : (State.ofConfig c).Inv where
  memory := h
  initMem := h
  bit5 := show (0x20#8).getLsbD 5 = true by decide
  interruptDisable := State.flag_ofConfig c .i
  decimal := State.flag_ofConfig c .d
  breakFlag := iff_of_false (by simp [State.flag_ofConfig]) Status.noConfusion
  below := Status.noConfusion

/-- The events still to come have no part in the invariant. -/
theorem State.Inv.withPending {s : State} (h : s.Inv) (es : List HostEvent) : { s with pending := es }.Inv :=
  { h with }

/-- Every event keeps the invariant. -/
theorem Delivered.inv {s t : State} {e : HostEvent} (h : Delivered s e t) (hs : s.Inv) : t.Inv := by
  cases h with
  | reset => exact (State.inv_ofConfig hs.initMem).withPending s.pending
  | load idle loaded =>
    exact { hs with memory := portLoad_wf _ _ _ _ hs.memory loaded, below := fun hrun => by simp [idle] at hrun }
  | start idle =>
    have hb : s.flag .b = false := hs.flag_b (by simp [idle])
    exact (hs.sound.setStatus .running).inv_checkEnd rfl hb
  | tick running => exact (hs.sound.after _).inv_endTick ((after_status _ s).trans running)
  | resume => exact hs.sound.leaveBreakpoint.inv_checkEnd rfl (s.flag_leaveBreakpoint .b)
  | ignored => exact hs

/-- Settles O59: `State.inv_ofConfig` at the default parameters, whose `INIT_MEM` is empty. -/
theorem invariantHoldsAtReset : Obligations.InvariantHoldsAtReset := State.inv_ofConfig State.reset_mem_wf

/-- Settles O60: the step is an event's, on the state without that event (`Delivered.inv`). -/
theorem everyStepKeepsTheInvariant : Obligations.EveryStepKeepsTheInvariant := by
  intro s t hs h
  cases hpending : s.pending with
  | nil =>
    rw [step_of_pending_nil hpending] at h
    exact (delivered_of_hostEvent h).inv hs
  | cons e es =>
    rw [step_of_pending_cons hpending] at h
    exact (delivered_of_hostEvent h).inv (hs.withPending es)

end Sys2Proof.Machine
end
